-- ==== Sys2Proof/Word.lean ====
section
/-! DEFINITION. The machine's word types (spec 00_scope.md R7, R8, R10; 10_state.md R24). -/

namespace Sys2Proof

/-- A register, a memory word, an instruction, a handle, an index: 32 bits, always read as
unsigned (R7, R8, R10). -/
abbrev Word := BitVec 32

/-- A byte of the program image or of an I/O channel (R130, R131, R171). -/
abbrev Byte := BitVec 8

/-- The program counter and the fault record's FAULT_PC and FAULT_INDEX: 33 bits, because the pc
ranges over 0 to 2^32 inclusive (R24, R28). -/
abbrev Pc := BitVec 33

end Sys2Proof
end

