-- ==== Sys2Proof/Syntax.lean ====
section
/-! DEFINITION. Instructions, one constructor per row of spec/opcode_table.json
(spec 30_encoding.md R72, R73, R76, R81). -/

namespace Sys2Proof

/-- The eight general registers (R20). None is hardwired (R21). -/
inductive Reg where
  | r0 | r1 | r2 | r3 | r4 | r5 | r6 | r7
  deriving DecidableEq, Repr

/-- The instruction set (R76). Operands are the selector fields an instruction uses, in the order
A, B, C (R13); ignored fields and bits are not part of an instruction (R78). -/
inductive Instr where
  /-- op 0: if rC ≠ 0 then rA <- rB (R100). -/
  | cmov (a b c : Reg)
  /-- op 1: rA <- segment rB, index rC (R101). -/
  | aread (a b c : Reg)
  /-- op 2: segment rA, index rB <- rC (R102). -/
  | awrite (a b c : Reg)
  /-- op 3: rA <- rB + rC mod 2^32 (R110). -/
  | add (a b c : Reg)
  /-- op 4: rA <- rB × rC mod 2^32 (R111). -/
  | mul (a b c : Reg)
  /-- op 5: rA <- floor(rB / rC) (R112). -/
  | div (a b c : Reg)
  /-- op 6: rA <- ~(rB & rC) (R113). -/
  | nand (a b c : Reg)
  /-- op 7: stop (R120). -/
  | halt
  /-- op 8: rB <- a new segment of rC words (R121). -/
  | alloc (b c : Reg)
  /-- op 9: free the segment rC (R122). -/
  | free (c : Reg)
  /-- op 10: emit the byte rC (R132). -/
  | out (c : Reg)
  /-- op 11, mnemonic `in`: rC <- the next input byte or the end sentinel (R133). -/
  | inp (c : Reg)
  /-- op 12: segment 0 <- a copy of segment rB; pc <- rC (R140). -/
  | loadprog (b c : Reg)
  /-- op 13: rA <- value, where value is the immediate already zero-extended to 32 bits (R81, R141). -/
  | li (a : Reg) (value : Word)
  /-- op 14, undefined: raises UnknownOperation (R77, R151). -/
  | reserved14
  /-- op 15, undefined: raises UnknownOperation (R77, R151). -/
  | reserved15
  deriving DecidableEq, Repr

end Sys2Proof
end

