-- ==== Sys2Proof/Config.lean ====
section
/-! DEFINITION. The implementation parameters the spec leaves open or lets a model take as an
argument (spec 00_scope.md R9; 92_eei_decisions.md D4, D9, D10, D14). They never change during a run. -/

namespace Sys2Proof

/-- OUTPUT_POLICY (R9, R132): what an output of a value above 255 does. -/
inductive OutputPolicy where
  /-- FAULT, this hardware's setting: raise OutputOutOfRange and emit nothing. -/
  | fault
  /-- TRUNCATE, the model argument: emit the value mod 256. -/
  | truncate
  deriving DecidableEq, Repr

/-- REG_RESET (R9, R23): what the registers hold after reset. -/
inductive RegReset where
  /-- ZERO, this hardware's setting: every register holds 0. -/
  | zero
  /-- UNWRITTEN, the model argument: a register holds no value until something writes it. -/
  | unwritten
  deriving DecidableEq, Repr

/-- The registers that hold no value after reset (R23). -/
def RegReset.valueless : RegReset → List Reg
  | .zero => []
  | .unwritten => [.r0, .r1, .r2, .r3, .r4, .r5, .r6, .r7]

/-- The parameters of R9 that stay arguments of the model. HANDLE_REUSE is fixed to LIFO (log entry 5). -/
structure Config where
  /-- MAX_SEGMENT_WORDS: the largest length a segment may have; OPEN (D9). -/
  maxSegmentWords : Nat
  /-- HEAP_CAPACITY_WORDS: the largest total length of all live segments; `none` is unbounded; OPEN (D10). -/
  heapCapacityWords : Option Nat
  /-- OUTPUT_POLICY (D14). -/
  outputPolicy : OutputPolicy
  /-- REG_RESET (D4; log entry 4). -/
  regReset : RegReset
  deriving DecidableEq, Repr

/-- The range R9 allows: 0 < MAX_SEGMENT_WORDS ≤ 2^32. -/
abbrev Config.legal (c : Config) : Prop :=
  0 < c.maxSegmentWords ∧ c.maxSegmentWords ≤ 2 ^ 32

/-- The parameter values the spec's test vectors use (95_test_vectors.md, Conventions):
MAX_SEGMENT_WORDS = 2^32, HEAP_CAPACITY_WORDS = ∞, OUTPUT_POLICY = FAULT, REG_RESET = ZERO.
DESIGN CHOICE (log entry 1): the first two are OPEN in the spec; the last two are this hardware's by R9.
Unsafe for a claim about the reset state, which is why claims quantify over `config`. -/
def Config.standard : Config :=
  { maxSegmentWords := 2 ^ 32, heapCapacityWords := none, outputPolicy := .fault, regReset := .zero }

end Sys2Proof
end

