-- ==== Sys2Proof/Machine/State.lean ====
section
/-! DEFINITION. The machine's state as plain data, its value after reset, and the reasons a step can
stop (spec 10_state.md R20 to R37). -/

namespace Sys2Proof.Machine

/-- The register file: eight 32-bit registers (R20). -/
structure RegFile where
  r0 : Word
  r1 : Word
  r2 : Word
  r3 : Word
  r4 : Word
  r5 : Word
  r6 : Word
  r7 : Word
  deriving DecidableEq, Repr

/-- The run-state register STATUS (R27). -/
inductive RunState where
  | running
  /-- ended normally, by the halt instruction -/
  | halted
  /-- ended by a fatal error -/
  | faulted
  deriving DecidableEq, Repr

/-- The fault kinds of FAULT_KIND (R28, R150), and the one that V3 names. -/
inductive FaultKind where
  | noFault
  | loadError
  | invalidHandle
  | outOfBounds
  | divisionByZero
  | unknownOperation
  | allocationFailure
  | outputOutOfRange
  /-- An instruction read a register that holds no value: the named fault of 93_implementation_defined.md V3 under
  the model argument REG_RESET = UNWRITTEN (R23). The chip never raises it, and R150 gives it no code (log entry
  4). -/
  | unwrittenRegister
  deriving DecidableEq, Repr

/-- The fault record (R28). No instruction reads it. -/
structure FaultRecord where
  /-- FAULT_KIND; its 3-bit code is `FaultKind.code` -/
  kind   : FaultKind
  /-- FAULT_PC, 33 bits -/
  pc     : Pc
  /-- FAULT_WORD -/
  word   : Word
  /-- FAULT_HANDLE -/
  handle : Word
  /-- FAULT_INDEX, 33 bits -/
  index  : Pc
  deriving DecidableEq, Repr

/-- The record when no fault has happened: every field 0 (R28). -/
def FaultRecord.clear : FaultRecord := ⟨.noFault, 0, 0, 0, 0⟩

/-- What `raise Fault(kind, info)` is given (R11): the kind and the handle and index involved, each 0
where the kind has none (R150). -/
structure FaultInfo where
  kind   : FaultKind
  handle : Word
  index  : Pc
  deriving DecidableEq, Repr

/-- A segment: a sequence of 32-bit words of fixed length (R31). It is held in the canonical form of
memory: its length and the words that are not 0, by strictly rising index. An unlisted index below
the length reads 0, which is what every word of a new segment holds (R43). -/
structure Segment where
  len   : Nat
  cells : List (Nat × Word)
  deriving DecidableEq, Repr

/-- The memory controller's state (R31 to R33). -/
structure Memory where
  /-- SEG: the live handles in strictly rising order, each with its segment (R31) -/
  seg  : List (Nat × Segment)
  /-- FREE: the free handles in the order they were freed, the most recent last (R32) -/
  free : List Word
  /-- NEXT: the smallest handle never issued, 1 to 2^32 (R33) -/
  next : Nat
  deriving DecidableEq, Repr

/-- The input channel's three answers to a request (R130). -/
inductive InAnswer where
  | byte (b : Byte)
  /-- END: the stream has ended -/
  | ended
  /-- nothing yet -/
  | pending
  deriving DecidableEq, Repr

/-- The complete state: R37's, the two I/O channels of R34, and two fields of the model's own: the parameters
of R9, which no step changes (log entry 1), and which registers hold no value yet (log entry 4). -/
structure State where
  /-- r0 to r7 (R20) -/
  regs       : RegFile
  /-- the registers that hold no value yet, of use under REG_RESET = UNWRITTEN alone (R23); not state of the
  hardware -/
  unwritten  : List Reg
  /-- the program counter, a word index into segment 0 (R24) -/
  pc         : Pc
  /-- STATUS (R27) -/
  status     : RunState
  /-- the fault record (R28) -/
  fault      : FaultRecord
  /-- SEG, FREE and NEXT (R31 to R33) -/
  mem        : Memory
  /-- INPUT: the bytes the host has delivered and the program has not yet consumed (R34) -/
  input      : List Byte
  /-- INPUT's end-of-stream mark (R34) -/
  inputEnded : Bool
  /-- OUTPUT: the bytes emitted so far, the oldest first (R34) -/
  output     : List Byte
  /-- the implementation parameters (R9); not state of the hardware -/
  config     : Config
  deriving DecidableEq, Repr

/-- Why the machine has no step. None of these is a fatal error of the spec: a fatal error is a next
state with STATUS = FAULTED (R152). All three are safe: the spec says there is no step. -/
inductive Fault where
  /-- Raised by `step` in a state with STATUS = HALTED, which has no step (R91). Safe. -/
  | halted
  /-- Raised by `step` in a state with STATUS = FAULTED, which has no step (R91). Safe. -/
  | faulted
  /-- Raised by the input instruction while the channel has no byte and has not ended: its step is not
  enabled, the machine waits with all state kept (R95, R130, 93_implementation_defined.md V2 `stuck`).
  Safe. -/
  | inputWait
  deriving DecidableEq, Repr

/-- Why an instruction has no meaning. -/
inductive Refusal where
  /-- Raised by an arm of `exec` for an instruction the model does not give a meaning; none does. Safe. -/
  | notModelled (mnemonic : String)
  deriving DecidableEq, Repr

/-- The machine right after a reset with the empty program image (R171, R173). A program comes from
outside: `boot` loads an image (R170), `withFetchWord` one word.
DESIGN CHOICE (log entries 1 to 3): the parameters are the spec's test-vector values, the image is
empty, and the host has supplied the empty input stream, already ended. -/
def State.reset : State :=
  { regs := ⟨0, 0, 0, 0, 0, 0, 0, 0⟩
    unwritten := []
    pc := 0
    status := .running
    fault := FaultRecord.clear
    mem := { seg := [(0, ⟨0, []⟩)], free := [], next := 1 }
    input := []
    inputEnded := true
    output := []
    config := Config.standard }

end Sys2Proof.Machine
end

