-- ==== Sys2Proof/Machine/Flags.lean ====
section
/-! DEFINITION. The machine has no flags (spec 10_state.md R29). What stands here are the tests that an
instruction makes on a register value and the arithmetic it computes (spec 42_alu.md R114). -/

namespace Sys2Proof.Machine

/-- The condition of the conditional move: any of the 32 bits is 1 (R100). -/
def nonZero (c : Word) : Bool := c != 0

/-- A value an output instruction may emit: 0 to 255 (R132). -/
def isByteValue (v : Word) : Bool := decide (v.toNat ≤ 255)

/-- (b + c) mod 2^32 (R110, R114). -/
def aluAdd (b c : Word) : Word := BitVec.ofNat 32 ((b.toNat + c.toNat) % 2 ^ 32)

/-- (b × c) mod 2^32, the exact product reduced (R111, R114). -/
def aluMul (b c : Word) : Word := BitVec.ofNat 32 ((b.toNat * c.toNat) % 2 ^ 32)

/-- floor(b / c), unsigned, for c ≠ 0; the fault for c = 0 (R112). -/
def aluDiv (b c : Word) : Except FaultInfo Word :=
  if c = 0 then .error ⟨.divisionByZero, 0, 0⟩ else .ok (BitVec.ofNat 32 (b.toNat / c.toNat))

/-- ~(b & c) over all 32 bits (R113). -/
def aluNand (b c : Word) : Word := ~~~(b &&& c)

/-- The value input writes at the end of the stream: all ones (R7 EOF_SENTINEL, R133). -/
def eofSentinel : Word := 0xFFFFFFFF

end Sys2Proof.Machine
end

