-- ==== Sys2Proof/WellFormed.lean ====
section
/-! DEFINITION. Which terms of `Instr` are instructions of the machine (spec 30_encoding.md R74, R75, R82).
Every selector names a register (R75), so the immediate's range is the one check. -/

namespace Sys2Proof

/-- `li rA, imm` has 0 ≤ imm ≤ 0x01FFFFFF (R74, R82). -/
abbrev immInRange (value : Word) : Prop := value.toNat ≤ 0x01FFFFFF

/-- An instruction is well formed when its immediate, if it has one, fits format L. -/
def Instr.wellFormed : Instr → Bool
  | .li _ value => decide (immInRange value)
  | .cmov _ _ _ => true
  | .aread _ _ _ => true
  | .awrite _ _ _ => true
  | .add _ _ _ => true
  | .mul _ _ _ => true
  | .div _ _ _ => true
  | .nand _ _ _ => true
  | .halt => true
  | .alloc _ _ => true
  | .free _ => true
  | .out _ => true
  | .inp _ => true
  | .loadprog _ _ => true
  | .reserved14 => true
  | .reserved15 => true

end Sys2Proof
end

