-- ==== Sys2Proof/Decode.lean ====
section
/-! DEFINITION. The decoder, the encoder and the field positions both read
(spec 30_encoding.md R70 to R82). -/

namespace Sys2Proof

/-! ### Field positions

One place for all of them (92_eei_decisions.md D2 asks for it). The opcode and format L are the
source's; the selector positions of format S are the spec's general knowledge (93_implementation_defined.md
G2): PRESUMED by the spec itself, log entry 6. -/

/-- Lowest bit of the opcode, bits 31:28 (R71). -/
def opLo : Nat := 28
/-- Lowest bit of selector A, bits 8:6 (R72). -/
def selALo : Nat := 6
/-- Lowest bit of selector B, bits 5:3 (R72). -/
def selBLo : Nat := 3
/-- Lowest bit of selector C, bits 2:0 (R72). -/
def selCLo : Nat := 0
/-- Lowest bit of format L's selector A13, bits 27:25 (R73). -/
def selA13Lo : Nat := 25

/-- The operation code, w[31:28] (R71). -/
def opcode (w : Word) : BitVec 4 := w.extractLsb' opLo 4

/-- The immediate of format L, w[24:0] (R73). -/
def immField (w : Word) : BitVec 25 := w.extractLsb' 0 25

/-- A selector value k names register rk (R75). -/
def Reg.ofBits (k : BitVec 3) : Reg :=
  match k.toNat with
  | 0 => .r0
  | 1 => .r1
  | 2 => .r2
  | 3 => .r3
  | 4 => .r4
  | 5 => .r5
  | 6 => .r6
  | _ => .r7

/-- The selector value that names a register (R75). -/
def Reg.bits : Reg → BitVec 3
  | .r0 => 0
  | .r1 => 1
  | .r2 => 2
  | .r3 => 3
  | .r4 => 4
  | .r5 => 5
  | .r6 => 6
  | .r7 => 7

/-- The register named by the three bits of w from bit `lo` up. -/
def selector (w : Word) (lo : Nat) : Reg := Reg.ofBits (w.extractLsb' lo 3)

/-- Decode (R81): total, and independent of machine state (R79, R80). The undefined codes 14 and 15
are rejected by name, as the two reserved rows of the opcode table (R77). Bits an instruction does
not use are ignored (R78, decision D3). -/
def decode (w : Word) : Instr :=
  match (opcode w).toNat with
  | 0 => .cmov (selector w selALo) (selector w selBLo) (selector w selCLo)
  | 1 => .aread (selector w selALo) (selector w selBLo) (selector w selCLo)
  | 2 => .awrite (selector w selALo) (selector w selBLo) (selector w selCLo)
  | 3 => .add (selector w selALo) (selector w selBLo) (selector w selCLo)
  | 4 => .mul (selector w selALo) (selector w selBLo) (selector w selCLo)
  | 5 => .div (selector w selALo) (selector w selBLo) (selector w selCLo)
  | 6 => .nand (selector w selALo) (selector w selBLo) (selector w selCLo)
  | 7 => .halt
  | 8 => .alloc (selector w selBLo) (selector w selCLo)
  | 9 => .free (selector w selCLo)
  | 10 => .out (selector w selCLo)
  | 11 => .inp (selector w selCLo)
  | 12 => .loadprog (selector w selBLo) (selector w selCLo)
  | 13 => .li (selector w selA13Lo) ((immField w).setWidth 32)
  | 14 => .reserved14
  | _ => .reserved15

/-- A word made of 4 bytes, the first in bits 31:24: the byte order of the program image (R52, R171). -/
def wordOfBytes (b0 b1 b2 b3 : Byte) : Word :=
  (b0.setWidth 32 <<< 24) ||| (b1.setWidth 32 <<< 16) ||| (b2.setWidth 32 <<< 8) ||| b3.setWidth 32

/-- An image's bytes as words, 4 bytes each; `none` when the length is not a multiple of 4 (R171, R172). -/
def imageWords : List Byte → Option (List Word)
  | [] => some []
  | b0 :: b1 :: b2 :: b3 :: rest => (imageWords rest).map (wordOfBytes b0 b1 b2 b3 :: ·)
  | [_] => none
  | [_, _] => none
  | [_, _, _] => none

/-- The decoder on bytes as the image lays them out: one instruction and the bytes after it, or
`none` when fewer than 4 bytes are left. -/
def decodeBytes : List Byte → Option (Instr × List Byte)
  | b0 :: b1 :: b2 :: b3 :: rest => some (decode (wordOfBytes b0 b1 b2 b3), rest)
  | _ => none

/-! ### The encoder, written from the table of R82 -/

/-- A selector placed at bit `lo`. -/
def placeReg (r : Reg) (lo : Nat) : Word := r.bits.setWidth 32 <<< lo

/-- The operation code of an instruction (R76). -/
def Instr.opcode : Instr → BitVec 4
  | .cmov _ _ _ => 0
  | .aread _ _ _ => 1
  | .awrite _ _ _ => 2
  | .add _ _ _ => 3
  | .mul _ _ _ => 4
  | .div _ _ _ => 5
  | .nand _ _ _ => 6
  | .halt => 7
  | .alloc _ _ => 8
  | .free _ => 9
  | .out _ => 10
  | .inp _ => 11
  | .loadprog _ _ => 12
  | .li _ _ => 13
  | .reserved14 => 14
  | .reserved15 => 15

/-- A format S word with all three selectors (R82). -/
def stdWord (base : Word) (a b c : Reg) : Word :=
  base ||| placeReg a selALo ||| placeReg b selBLo ||| placeReg c selCLo

/-- The word the assembler writes, 0 in every ignored bit (R82). For the undefined codes, the code
alone (R77). -/
def encode : Instr → Word
  | .cmov a b c => stdWord 0x00000000 a b c
  | .aread a b c => stdWord 0x10000000 a b c
  | .awrite a b c => stdWord 0x20000000 a b c
  | .add a b c => stdWord 0x30000000 a b c
  | .mul a b c => stdWord 0x40000000 a b c
  | .div a b c => stdWord 0x50000000 a b c
  | .nand a b c => stdWord 0x60000000 a b c
  | .halt => 0x70000000
  | .alloc b c => 0x80000000 ||| placeReg b selBLo ||| placeReg c selCLo
  | .free c => 0x90000000 ||| placeReg c selCLo
  | .out c => 0xA0000000 ||| placeReg c selCLo
  | .inp c => 0xB0000000 ||| placeReg c selCLo
  | .loadprog b c => 0xC0000000 ||| placeReg b selBLo ||| placeReg c selCLo
  | .li a value => 0xD0000000 ||| placeReg a selA13Lo ||| value
  | .reserved14 => 0xE0000000
  | .reserved15 => 0xF0000000

/-- The bits of a word that an instruction uses; every other bit is ignored (R76, R78). -/
def usedBits : Instr → Word
  | .cmov _ _ _ => 0xF00001FF
  | .aread _ _ _ => 0xF00001FF
  | .awrite _ _ _ => 0xF00001FF
  | .add _ _ _ => 0xF00001FF
  | .mul _ _ _ => 0xF00001FF
  | .div _ _ _ => 0xF00001FF
  | .nand _ _ _ => 0xF00001FF
  | .halt => 0xF0000000
  | .alloc _ _ => 0xF000003F
  | .free _ => 0xF0000007
  | .out _ => 0xF0000007
  | .inp _ => 0xF0000007
  | .loadprog _ _ => 0xF000003F
  | .li _ _ => 0xFFFFFFFF
  | .reserved14 => 0xF0000000
  | .reserved15 => 0xF0000000

/-! ### The host's numbering of table words -/

/-- The 32-bit word of a table row: its `nbits` low bits are w's, the bits above them are 0. -/
def tableWord (nbits w : Nat) : Word := BitVec.ofNat 32 (w % 2 ^ nbits)

/-- The instruction the decoder reads from a table row's word. The machine stores an instruction as
one whole word (R70), so the table's bit numbers are the word's own (R10). A row longer than 32 bits
is no instruction of this machine. -/
def decodeTableWord (nbits w : Nat) : Option Instr :=
  if nbits ≤ 32 then some (decode (tableWord nbits w)) else none

end Sys2Proof
end

