-- ==== Sys2Proof/Machine/Ops.lean ====
section
/-! DEFINITION. The shared operations: the memory controller, fetch, the I/O channels, raising a
fault, and the reset with a program image (spec 20_memory.md, 44_io.md, 60_exceptions.md,
70_reset_and_hazards.md). -/

namespace Sys2Proof.Machine

/-! ### Sparse lists in canonical form -/

/-- The value listed under key k. -/
def assocGet {α : Type} (k : Nat) : List (Nat × α) → Option α
  | [] => none
  | (k', v) :: rest => if k = k' then some v else assocGet k rest

/-- List v under k, in rising order of the keys, in place of what was listed there. -/
def assocPut {α : Type} (k : Nat) (v : α) : List (Nat × α) → List (Nat × α)
  | [] => [(k, v)]
  | (k', v') :: rest =>
    if k < k' then (k, v) :: (k', v') :: rest
    else if k = k' then (k, v) :: rest
    else (k', v') :: assocPut k v rest

/-- Remove what is listed under k. -/
def assocDrop {α : Type} (k : Nat) (l : List (Nat × α)) : List (Nat × α) :=
  l.filter (fun p => p.1 != k)

/-- The keys are strictly rising. -/
abbrev assocRising {α : Type} (l : List (Nat × α)) : Prop :=
  l.Pairwise (fun p q => p.1 < q.1)

/-! ### Segments (R31) -/

/-- What an index of a segment reads as when nothing is listed for it: 0, the value every word of a
new segment holds (R43, R44). -/
def unlistedWord : Word := 0

/-- The word at index i. -/
def Segment.read (g : Segment) (i : Nat) : Word := (assocGet i g.cells).getD unlistedWord

/-- The segment with v at index i; its length never changes (R31). -/
def Segment.write (g : Segment) (i : Nat) (v : Word) : Segment :=
  { g with cells := if v = unlistedWord then assocDrop i g.cells else assocPut i v g.cells }

/-- A segment of n words, each 0 (R43). -/
def Segment.zeros (n : Nat) : Segment := { len := n, cells := [] }

/-- The listed cells of a sequence of words whose first index is i. -/
def cellsFrom (i : Nat) : List Word → List (Nat × Word)
  | [] => []
  | w :: ws => if w = unlistedWord then cellsFrom (i + 1) ws else (i, w) :: cellsFrom (i + 1) ws

/-- The segment that holds a sequence of words. -/
def Segment.ofWords (ws : List Word) : Segment := { len := ws.length, cells := cellsFrom 0 ws }

/-- A segment as the sequence of words it stands for (R31). -/
def Segment.words (g : Segment) : List Word := (List.range g.len).map g.read

/-- The canonical form of a segment: indices rising and below the length, no listed 0. -/
abbrev Segment.wf (g : Segment) : Prop :=
  assocRising g.cells ∧ ∀ c ∈ g.cells, c.1 < g.len ∧ c.2 ≠ unlistedWord

/-! ### The segment map and the heap limits (R31, R41) -/

/-- SEG(h): the segment bound to handle h, if h is live (R31). -/
def Memory.segment (m : Memory) (h : Word) : Option Segment := assocGet h.toNat m.seg

/-- len(0), the length of the program segment; 0 if there is none. I1 (R40) says there always is one. -/
def Memory.programLen (m : Memory) : Nat :=
  match m.segment 0 with
  | some g => g.len
  | none => 0

/-- TOTAL: the sum of the lengths of all live segments, segment 0 included (R41). -/
def Memory.total (m : Memory) : Nat := (m.seg.map (fun b => b.2.len)).sum

/-- The canonical form of memory: live handles rising, each 32 bits wide, each segment canonical. -/
abbrev Memory.wf (m : Memory) : Prop :=
  assocRising m.seg ∧ ∀ b ∈ m.seg, b.1 < 2 ^ 32 ∧ b.2.wf

/-- n words in all are within HEAP_CAPACITY_WORDS (R41). -/
def fitsCapacity (cfg : Config) (n : Nat) : Bool :=
  match cfg.heapCapacityWords with
  | none => true
  | some c => decide (n ≤ c)

/-- A segment of n words is short enough (R41). -/
def fitsSegment (cfg : Config) (n : Nat) : Bool := decide (n ≤ cfg.maxSegmentWords)

/-! ### The memory controller's operations (R42 to R49) -/

/-- Read (R46): liveness first, then bounds. -/
def memRead (m : Memory) (h i : Word) : Except FaultInfo Word :=
  match m.segment h with
  | none => .error ⟨.invalidHandle, h, 0⟩
  | some g =>
    if i.toNat < g.len then .ok (g.read i.toNat)
    else .error ⟨.outOfBounds, h, i.setWidth 33⟩

/-- Write (R47): liveness first, then bounds. -/
def memWrite (m : Memory) (h i v : Word) : Except FaultInfo Memory :=
  match m.segment h with
  | none => .error ⟨.invalidHandle, h, 0⟩
  | some g =>
    if i.toNat < g.len then .ok { m with seg := assocPut h.toNat (g.write i.toNat v) m.seg }
    else .error ⟨.outOfBounds, h, i.setWidth 33⟩

/-- ChooseHandle (R42): the most recently freed handle, else the next fresh one, else AllocationFailure
with the requested size n. -/
def chooseHandle (n : Word) (m : Memory) : Except FaultInfo (Word × Memory) :=
  match m.free.getLast? with
  | some h => .ok (h, { m with free := m.free.dropLast })
  | none =>
    if m.next ≤ 2 ^ 32 - 1 then .ok (BitVec.ofNat 32 m.next, { m with next := m.next + 1 })
    else .error ⟨.allocationFailure, 0, n.setWidth 33⟩

/-- Allocate (R43): the size is checked before a handle is chosen. -/
def memAlloc (cfg : Config) (n : Word) (m : Memory) : Except FaultInfo (Word × Memory) :=
  if fitsSegment cfg n.toNat && fitsCapacity cfg (m.total + n.toNat) then
    match chooseHandle n m with
    | .ok (h, m') =>
      .ok (h, { m' with seg := assocPut h.toNat (Segment.zeros n.toNat) m'.seg })
    | .error f => .error f
  else .error ⟨.allocationFailure, 0, n.setWidth 33⟩

/-- Free (R45): handle 0 and a handle that is not live fault. -/
def memFree (h : Word) (m : Memory) : Except FaultInfo Memory :=
  if h = 0 ∨ m.segment h = none then .error ⟨.invalidHandle, h, 0⟩
  else .ok { m with seg := assocDrop h.toNat m.seg, free := m.free ++ [h] }

/-- ReplaceProgram (R48): nothing for handle 0; else segment 0 becomes a copy of segment h. A segment is
a value, so the copy shares nothing with the original (R62). -/
def memReplace (cfg : Config) (h : Word) (m : Memory) : Except FaultInfo Memory :=
  if h = 0 then .ok m
  else
    match m.segment h with
    | none => .error ⟨.invalidHandle, h, 0⟩
    | some g =>
      if fitsCapacity cfg (m.total - m.programLen + g.len) then
        .ok { m with seg := assocPut 0 g m.seg }
      else .error ⟨.allocationFailure, h, BitVec.ofNat 33 g.len⟩

/-- Fetch (R49): the word at index pc of segment 0. -/
def fetch (s : State) : Except FaultInfo Word :=
  match s.mem.segment 0 with
  | none => .error ⟨.outOfBounds, 0, s.pc⟩
  | some g =>
    if s.pc.toNat < g.len then .ok (g.read s.pc.toNat)
    else .error ⟨.outOfBounds, 0, s.pc⟩

/-- The word of the instruction now executing, and 0 where the fetch itself faults: what FAULT_WORD
records (R28, R152). -/
def currentWord (s : State) : Word :=
  match fetch s with
  | .ok w => w
  | .error _ => 0

/-! ### Taking a fatal error (R150 to R154) -/

/-- The code of a fault kind in FAULT_KIND (R28, R150). The 3 bits have none for V3's fault, which the chip never
raises (R23; log entry 4). -/
def FaultKind.code : FaultKind → Option (BitVec 3)
  | .noFault => some 0
  | .loadError => some 1
  | .invalidHandle => some 2
  | .outOfBounds => some 3
  | .divisionByZero => some 4
  | .unknownOperation => some 5
  | .allocationFailure => some 6
  | .outputOutOfRange => some 7
  | .unwrittenRegister => none

/-- Taking a fatal error, the one exception entry of the machine (R152): STATUS and the fault record are
written and nothing else is; pc stays. There is no handler to go to and no return (R154), so no
operation stands beside this one. -/
def State.raise (f : FaultInfo) (s : State) : State :=
  { s with
    status := .faulted
    fault := ⟨f.kind, s.pc, currentWord s, f.handle, f.index⟩ }

/-- `raise Fault(kind, info)` as the outcome of a step (R152). -/
def trap (f : FaultInfo) (s : State) : Host.Outcome State Fault Refusal := .next (s.raise f)

/-- Go on with the response of a request, or take the fault it answers (R50). -/
def orTrap {α : Type} (s : State) (r : Except FaultInfo α) (k : α → State) :
    Host.Outcome State Fault Refusal :=
  match r with
  | .ok v => .next (k v)
  | .error f => trap f s

/-! ### The I/O channels (R130, R131) -/

/-- InByte's answer (R130). A byte the host has delivered comes before END, and END stays (decision D16). -/
def inByte (s : State) : InAnswer :=
  match s.input with
  | b :: _ => .byte b
  | [] => if s.inputEnded then .ended else .pending

/-- The delivered byte is consumed (R130). -/
def State.consumeInput (s : State) : State := { s with input := s.input.tail }

/-- OutByte (R131): append one byte to OUTPUT. -/
def State.emit (b : Byte) (s : State) : State := { s with output := s.output ++ [b] }

/-- The host delivers an input byte (R175). After END it must not; then nothing happens. -/
def State.hostByte (b : Byte) (s : State) : State :=
  if s.inputEnded then s else { s with input := s.input ++ [b] }

/-- The host ends the input stream (R130, R175). -/
def State.hostEnd (s : State) : State := { s with inputEnded := true }

/-! ### Reset with a program image (R170 to R173) -/

/-- The state after a malformed image (R172): FAULTED with LoadError, every other fault field 0. SEG is
left empty, which R172 allows (log entry 9). -/
def loadErrorState (cfg : Config) (input : List Byte) (ended : Bool) : State :=
  { regs := ⟨0, 0, 0, 0, 0, 0, 0, 0⟩
    unwritten := cfg.regReset.valueless
    pc := 0
    status := .faulted
    fault := { FaultRecord.clear with kind := .loadError }
    mem := { seg := [], free := [], next := 1 }
    input := input
    inputEnded := ended
    output := []
    config := cfg }

/-- The state after a well-formed image (R171). Under REG_RESET = UNWRITTEN no register holds a value (R23), and
the 0 in its place is never read. -/
def loadedState (cfg : Config) (ws : List Word) (input : List Byte) (ended : Bool) : State :=
  { regs := ⟨0, 0, 0, 0, 0, 0, 0, 0⟩
    unwritten := cfg.regReset.valueless
    pc := 0
    status := .running
    fault := FaultRecord.clear
    mem := { seg := [(0, Segment.ofWords ws)], free := [], next := 1 }
    input := input
    inputEnded := ended
    output := []
    config := cfg }

/-- Reset (R170): from the image's bytes, and whatever input the host supplies (R34, R181). -/
def boot (cfg : Config) (image : List Byte) (input : List Byte) (ended : Bool) : State :=
  match imageWords image with
  | none => loadErrorState cfg input ended
  | some ws =>
    if fitsSegment cfg ws.length && fitsCapacity cfg ws.length then
      loadedState cfg ws input ended
    else loadErrorState cfg input ended

/-- Segment 0 with w at index i, made long enough to hold it: how one word is placed from outside. -/
def Memory.placeProgramWord (m : Memory) (i : Nat) (w : Word) : Memory :=
  let g := (m.segment 0).getD (Segment.zeros 0)
  { m with seg := assocPut 0 (Segment.write { g with len := max g.len (i + 1) } i w) m.seg }

end Sys2Proof.Machine
end

