-- ==== Sys2Proof/Machine/Operands.lean ====
section
/-! DEFINITION. Register operands and the pc update (spec 10_state.md R20 to R26, 00_scope.md R11, R12).
The one operand form is a register selector; the one immediate is decoded already. -/

namespace Sys2Proof.Machine

/-- x[i] of a register file (R11). -/
def RegFile.get (f : RegFile) : Reg → Word
  | .r0 => f.r0
  | .r1 => f.r1
  | .r2 => f.r2
  | .r3 => f.r3
  | .r4 => f.r4
  | .r5 => f.r5
  | .r6 => f.r6
  | .r7 => f.r7

/-- x[i] <- v in a register file (R11). Every register can be written, r0 too (R21). -/
def RegFile.set (f : RegFile) (r : Reg) (v : Word) : RegFile :=
  match r with
  | .r0 => { f with r0 := v }
  | .r1 => { f with r1 := v }
  | .r2 => { f with r2 := v }
  | .r3 => { f with r3 := v }
  | .r4 => { f with r4 := v }
  | .r5 => { f with r5 := v }
  | .r6 => { f with r6 := v }
  | .r7 => { f with r7 := v }

/-- x[r] (R11). -/
def State.reg (s : State) (r : Reg) : Word := s.regs.get r

/-- x[r] <- v (R11). The register holds a value from then on (R23). -/
def State.setReg (r : Reg) (v : Word) (s : State) : State :=
  { s with regs := s.regs.set r v, unwritten := s.unwritten.filter (fun r' => r' != r) }

/-- Each of these registers holds a value: always under REG_RESET = ZERO (R23). -/
abbrev State.CanRead (s : State) (rs : List Reg) : Prop := ∀ r ∈ rs, r ∉ s.unwritten

/-- An instruction that reads these registers, before anything else it does (R12). Reading one that holds no
value raises the fault V3 names, which ends the run FAULTED (R23; 93_implementation_defined.md, treatments). -/
def reading (rs : List Reg) (s : State) (k : Host.Outcome State Fault Refusal) :
    Host.Outcome State Fault Refusal :=
  if s.CanRead rs then k else trap ⟨.unwrittenRegister, 0, 0⟩ s

/-- pc <- pc + 1, the end of every instruction but load program (R25, R92). It does not wrap at 2^32 (R26). -/
def State.advance (s : State) : State := { s with pc := s.pc + 1 }

/-- pc <- x[r], zero-extended to the pc's width (R140). -/
def State.jump (t : Word) (s : State) : State := { s with pc := t.setWidth 33 }

/-- The memory controller's new state. -/
def State.setMem (m : Memory) (s : State) : State := { s with mem := m }

/-- STATUS <- HALTED (R120). -/
def State.stop (s : State) : State := { s with status := .halted }

end Sys2Proof.Machine
end

