-- ==== Sys2Proof/Machine/Alu.lean ====
section
/-! DEFINITION. Addition, multiplication, division, NAND (spec 42_alu.md). -/

namespace Sys2Proof.Machine

/-- add rA, rB, rC (R110). -/
def execAdd (a b c : Reg) (s : State) : Host.Outcome State Fault Refusal :=
  reading [b, c] s <| .next (s.setReg a (aluAdd (s.reg b) (s.reg c))).advance

/-- mul rA, rB, rC (R111). -/
def execMul (a b c : Reg) (s : State) : Host.Outcome State Fault Refusal :=
  reading [b, c] s <| .next (s.setReg a (aluMul (s.reg b) (s.reg c))).advance

/-- div rA, rB, rC (R112). -/
def execDiv (a b c : Reg) (s : State) : Host.Outcome State Fault Refusal :=
  reading [b, c] s <| orTrap s (aluDiv (s.reg b) (s.reg c)) fun v => (s.setReg a v).advance

/-- nand rA, rB, rC (R113). -/
def execNand (a b c : Reg) (s : State) : Host.Outcome State Fault Refusal :=
  reading [b, c] s <| .next (s.setReg a (aluNand (s.reg b) (s.reg c))).advance

end Sys2Proof.Machine
end

