-- ==== Sys2Proof/Machine/HaltHeap.lean ====
section
/-! DEFINITION. Halt, allocate, free (spec 43_halt_and_heap.md). -/

namespace Sys2Proof.Machine

/-- halt (R120). -/
def execHalt (s : State) : Host.Outcome State Fault Refusal :=
  .next s.stop.advance

/-- alloc rB, rC (R121). -/
def execAlloc (b c : Reg) (s : State) : Host.Outcome State Fault Refusal :=
  reading [c] s <| orTrap s (memAlloc s.config (s.reg c) s.mem) fun r => ((s.setMem r.2).setReg b r.1).advance

/-- free rC (R122). -/
def execFree (c : Reg) (s : State) : Host.Outcome State Fault Refusal :=
  reading [c] s <| orTrap s (memFree (s.reg c) s.mem) fun m => (s.setMem m).advance

end Sys2Proof.Machine
end

