-- ==== Sys2Proof/Machine/InOut.lean ====
section
/-! DEFINITION. Output and input (spec 44_io.md). -/

namespace Sys2Proof.Machine

/-- out rC (R132): under OUTPUT_POLICY = FAULT a value above 255 faults; under TRUNCATE it is emitted
mod 256. -/
def execOut (c : Reg) (s : State) : Host.Outcome State Fault Refusal :=
  reading [c] s <|
  if isByteValue (s.reg c) || s.config.outputPolicy == .truncate then
    .next (s.emit ((s.reg c).setWidth 8)).advance
  else trap ⟨.outputOutOfRange, 0, 0⟩ s

/-- in rC (R133). With no byte and no end yet the step is not enabled (R95). -/
def execInp (c : Reg) (s : State) : Host.Outcome State Fault Refusal :=
  match inByte s with
  | .byte b => .next (s.consumeInput.setReg c (b.setWidth 32)).advance
  | .ended => .next (s.setReg c eofSentinel).advance
  | .pending => .fault .inputWait

end Sys2Proof.Machine
end

