-- ==== Sys2Proof/Machine/ProgramControl.lean ====
section
/-! DEFINITION. Load program and load immediate (spec 45_program_control.md). -/

namespace Sys2Proof.Machine

/-- loadprog rB, rC (R140). -/
def execLoadprog (b c : Reg) (s : State) : Host.Outcome State Fault Refusal :=
  reading [b, c] s <| orTrap s (memReplace s.config (s.reg b) s.mem) fun m => (s.setMem m).jump (s.reg c)

/-- li rA, imm (R141). -/
def execLi (a : Reg) (value : Word) (s : State) : Host.Outcome State Fault Refusal :=
  .next (s.setReg a value).advance

end Sys2Proof.Machine
end

