-- ==== Sys2Proof/Machine/RegisterArray.lean ====
section
/-! DEFINITION. Conditional move, array read, array write (spec 41_register_and_array.md). -/

namespace Sys2Proof.Machine

/-- cmov rA, rB, rC (R100). -/
def execCmov (a b c : Reg) (s : State) : Host.Outcome State Fault Refusal :=
  reading [b, c] s <| .next (if nonZero (s.reg c) then (s.setReg a (s.reg b)).advance else s.advance)

/-- aread rA, rB, rC (R101). -/
def execAread (a b c : Reg) (s : State) : Host.Outcome State Fault Refusal :=
  reading [b, c] s <| orTrap s (memRead s.mem (s.reg b) (s.reg c)) fun v => (s.setReg a v).advance

/-- awrite rA, rB, rC (R102). -/
def execAwrite (a b c : Reg) (s : State) : Host.Outcome State Fault Refusal :=
  reading [a, b, c] s <| orTrap s (memWrite s.mem (s.reg a) (s.reg b) (s.reg c)) fun m => (s.setMem m).advance

end Sys2Proof.Machine
end

