-- ==== Sys2Proof/Machine/Undefined.lean ====
section
/-! DEFINITION. The undefined operation codes (spec 60_exceptions.md R151). -/

namespace Sys2Proof.Machine

/-- Operation code 14 raises UnknownOperation (R151). -/
def execReserved14 (s : State) : Host.Outcome State Fault Refusal :=
  trap ⟨.unknownOperation, 0, 0⟩ s

/-- Operation code 15 raises UnknownOperation (R151). -/
def execReserved15 (s : State) : Host.Outcome State Fault Refusal :=
  trap ⟨.unknownOperation, 0, 0⟩ s

end Sys2Proof.Machine
end

