-- ==== Sys2Proof/Machine/Step.lean ====
section
/-! DEFINITION. One step of the Execution Engine (spec 40_execution_cycle.md R91, R92), and how one
instruction word is placed for it. -/

namespace Sys2Proof.Machine

/-- One step (R92): fetch, decode, dispatch, as one transition (R6). HALTED and FAULTED have none (R91). -/
def step (s : State) : Host.Outcome State Fault Refusal :=
  match s.status with
  | .running =>
    match fetch s with
    | .ok w => exec (decode w) s
    | .error f => trap f s
  | .halted => .fault .halted
  | .faulted => .fault .faulted

/-- s with a table row's word at (0, pc), where `step` fetches its next instruction (R49). Segment 0 is
made long enough to hold index pc; nothing else changes. It stands for loading a program from outside
the machine (R170; log entry 3). -/
def State.withFetchWord (s : State) (nbits w : Nat) : State :=
  { s with mem := s.mem.placeProgramWord s.pc.toNat (tableWord nbits w) }

end Sys2Proof.Machine
end

