-- ==== Sys2Proof/Safety.lean ====
section
/-! DEFINITION. What holds of every good state (spec 20_memory.md R40) and what a safe run is (R97). -/

namespace Sys2Proof

/-! ### The register table of R22 -/

/-- The registers an instruction reads (R22). -/
def Instr.readRegs : Instr → List Reg
  | .cmov _ b c => [b, c]
  | .aread _ b c => [b, c]
  | .awrite a b c => [a, b, c]
  | .add _ b c => [b, c]
  | .mul _ b c => [b, c]
  | .div _ b c => [b, c]
  | .nand _ b c => [b, c]
  | .halt => []
  | .alloc _ c => [c]
  | .free c => [c]
  | .out c => [c]
  | .inp _ => []
  | .loadprog b c => [b, c]
  | .li _ _ => []
  | .reserved14 => []
  | .reserved15 => []

/-- The register an instruction writes, if it writes one (R22). -/
def Instr.writtenReg : Instr → Option Reg
  | .cmov a _ _ => some a
  | .aread a _ _ => some a
  | .awrite _ _ _ => none
  | .add a _ _ => some a
  | .mul a _ _ => some a
  | .div a _ _ => some a
  | .nand a _ _ => some a
  | .halt => none
  | .alloc b _ => some b
  | .free _ => none
  | .out _ => none
  | .inp c => some c
  | .loadprog _ _ => none
  | .li a _ => some a
  | .reserved14 => none
  | .reserved15 => none

end Sys2Proof

namespace Sys2Proof.Machine

/-- Handle h is live (R14, R31). -/
def Memory.live (m : Memory) (h : Word) : Prop := ∃ g, m.segment h = some g

/-- The invariants I1 to I7 of R40, with the range of NEXT (R33). -/
structure HeapInv (cfg : Config) (m : Memory) : Prop where
  /-- I1: handle 0 is live -/
  zeroLive       : m.live 0
  /-- I2: no handle in FREE is live -/
  freeNotLive    : ∀ h ∈ m.free, m.segment h = none
  /-- I3: every handle in FREE is below NEXT, and 0 is never in FREE -/
  freeBelowNext  : ∀ h ∈ m.free, h.toNat < m.next ∧ h ≠ 0
  /-- I4: FREE holds no handle twice -/
  freeNoRepeat   : m.free.Nodup
  /-- I5: every live handle is below NEXT -/
  liveBelowNext  : ∀ h, m.live h → h.toNat < m.next
  /-- I6: every live segment has length ≤ MAX_SEGMENT_WORDS -/
  segmentLength  : ∀ h g, m.segment h = some g → g.len ≤ cfg.maxSegmentWords
  /-- I7: the lengths of all live segments sum to at most HEAP_CAPACITY_WORDS -/
  withinCapacity : ∀ c, cfg.heapCapacityWords = some c → m.total ≤ c
  /-- NEXT is from 1 to 2^32 (R33) -/
  nextRange      : 1 ≤ m.next ∧ m.next ≤ 2 ^ 32

/-- The fault record and STATUS agree: the record's kind is set exactly in FAULTED, and until then every
field is 0 (R28). -/
def faultRecordAgrees (s : State) : Prop :=
  (s.status = .faulted ↔ s.fault.kind ≠ .noFault) ∧
    (s.status ≠ .faulted → s.fault = FaultRecord.clear)

/-- The invariant of a run: legal parameters, canonical memory, I1 to I7, pc at most 2^32 (R24), an agreeing
fault record, and under REG_RESET = ZERO a value in every register (R23). -/
structure State.Inv (s : State) : Prop where
  configLegal   : s.config.legal
  memCanonical  : s.mem.wf
  heap          : HeapInv s.config s.mem
  pcRange       : s.pc.toNat ≤ 2 ^ 32
  recordAgrees  : faultRecordAgrees s
  regsHold      : s.config.regReset = .zero → s.unwritten = []

/-- A run has ended normally (R97). -/
def State.endedNormally (s : State) : Prop := s.status = .halted

/-- A run has ended with an error, which the fault record names (R97). -/
def State.endedWithError (s : State) : Prop := s.status = .faulted

/-- A state no fatal error has been raised in: what a safe run stays in. -/
def State.safe (s : State) : Prop := s.status ≠ .faulted

/-! ### What a claim about an instruction's frame says -/

/-- Register r holds the value v (R20, R23). -/
def State.Holds (s : State) (r : Reg) (v : Word) : Prop := s.reg r = v ∧ r ∉ s.unwritten

/-- Register r is not written: its value is as before, and it holds one if it did before. -/
def SameReg (r : Reg) (s t : State) : Prop := t.reg r = s.reg r ∧ (r ∈ t.unwritten ↔ r ∈ s.unwritten)

/-- No register is written. -/
def SameRegs (s t : State) : Prop := ∀ r, SameReg r s t

/-- No register but d is written. -/
def SameRegsBut (d : Reg) (s t : State) : Prop := ∀ r, r ≠ d → SameReg r s t

/-- Every word of memory reads as before, live or not, and SEG, FREE and NEXT are as before. -/
structure SameMemory (s t : State) : Prop where
  reads : ∀ h i, memRead t.mem h i = memRead s.mem h i
  whole : t.mem = s.mem

/-- FREE and NEXT are as before. -/
structure SameHandles (s t : State) : Prop where
  free : t.mem.free = s.mem.free
  next : t.mem.next = s.mem.next

/-- INPUT and its end mark are as before. -/
structure SameInput (s t : State) : Prop where
  input : t.input = s.input
  ended : t.inputEnded = s.inputEnded

/-- Both I/O channels are as before. -/
structure SameIo (s t : State) : Prop where
  input  : SameInput s t
  output : t.output = s.output

/-- STATUS, the fault record and the parameters are as before. -/
structure SameControl (s t : State) : Prop where
  status : t.status = s.status
  fault  : t.fault = s.fault
  config : t.config = s.config

/-- t is s after a fatal error of kind k with handle h and index i, raised by the word w (R152): STATUS and
the record are written, and nothing else. -/
structure TookFault (k : FaultKind) (h : Word) (i : Pc) (w : Word) (s t : State) : Prop where
  status : t.status = .faulted
  record : t.fault = ⟨k, s.pc, w, h, i⟩
  pc     : t.pc = s.pc
  regs   : SameRegs s t
  memory : SameMemory s t
  io     : SameIo s t
  config : t.config = s.config

/-- What an instruction that completes asks of the memory controller, from its own operands (R50), is all that
changes memory from s to t: one request that changes state for array write, allocate, free and load program, none
for any other instruction (R93). -/
def MemoryChangesByOwnRequest (i : Instr) (s t : State) : Prop :=
  match i with
  | .awrite a b c => memWrite s.mem (s.reg a) (s.reg b) (s.reg c) = .ok t.mem
  | .alloc b c => memAlloc s.config (s.reg c) s.mem = .ok (t.reg b, t.mem)
  | .free c => memFree (s.reg c) s.mem = .ok t.mem
  | .loadprog b _ => memReplace s.config (s.reg b) s.mem = .ok t.mem
  | .cmov _ _ _ => t.mem = s.mem
  | .aread _ _ _ => t.mem = s.mem
  | .add _ _ _ => t.mem = s.mem
  | .mul _ _ _ => t.mem = s.mem
  | .div _ _ _ => t.mem = s.mem
  | .nand _ _ _ => t.mem = s.mem
  | .halt => t.mem = s.mem
  | .out _ => t.mem = s.mem
  | .inp _ => t.mem = s.mem
  | .li _ _ => t.mem = s.mem
  | .reserved14 => t.mem = s.mem
  | .reserved15 => t.mem = s.mem

/-- What an instruction that completes transfers on the I/O channels: output emits one byte, input consumes the
first byte or, at the end of the stream, none, and any other instruction moves nothing (R93, R130, R131). -/
def IoMovesByOwnTransfer (i : Instr) (s t : State) : Prop :=
  match i with
  | .out c => SameInput s t ∧ t.output = s.output ++ [(s.reg c).setWidth 8]
  | .inp _ => t.output = s.output ∧ t.inputEnded = s.inputEnded ∧ t.input = s.input.tail
  | .cmov _ _ _ => SameIo s t
  | .aread _ _ _ => SameIo s t
  | .awrite _ _ _ => SameIo s t
  | .add _ _ _ => SameIo s t
  | .mul _ _ _ => SameIo s t
  | .div _ _ _ => SameIo s t
  | .nand _ _ _ => SameIo s t
  | .halt => SameIo s t
  | .alloc _ _ => SameIo s t
  | .free _ => SameIo s t
  | .loadprog _ _ => SameIo s t
  | .li _ _ => SameIo s t
  | .reserved14 => SameIo s t
  | .reserved15 => SameIo s t

/-- A segment of n words may be added to a heap of `total` words (R41). -/
def Admitted (cfg : Config) (total n : Nat) : Prop :=
  n ≤ cfg.maxSegmentWords ∧ ∀ c, cfg.heapCapacityWords = some c → total + n ≤ c

end Sys2Proof.Machine
end

