-- ==== Sys2Proof/Certificates/Slice0/Obligations.lean ====
section
/-! DEFINITION. The statements for the provers, in the order of the spec's files. Each docstring names the
rule it formalises. A statement whose rule rests on a decision of 92_eei_decisions.md says so: the
decision is the spec's own and not its source's. -/

open Sys2Proof Sys2Proof.Machine

/-! ### Encoding (30_encoding.md) -/

/-- R81 and R82 agree: what the assembler writes decodes to what was written, for every instruction and
every operand. The selector positions are decision D2's. -/
def Obligations.DecodeOfEncodeIsIdentity : Prop :=
  ∀ i : Instr, i.wellFormed = true → decode (encode i) = i

/-- R78, R79, R82: encoding what a word decodes to gives the word back with the bits it does not use
cleared, so every bit an instruction uses is read and no other is. Ignoring them is decision D3. -/
def Obligations.EncodeOfDecodeClearsIgnoredBits : Prop :=
  ∀ w : Word, encode (decode w) = w &&& usedBits (decode w)

/-- R78: ignored bits may hold any value (decision D3). -/
def Obligations.IgnoredBitsDoNotChangeDecoding : Prop :=
  ∀ w v : Word, w &&& usedBits (decode w) = v &&& usedBits (decode w) → decode v = decode w

/-- R71: the operation code is bits 31:28 as an unsigned number; 0 to 13 are instructions, 14 and 15 are
the undefined codes. -/
def Obligations.OpcodeIsTheTopFourBits : Prop :=
  ∀ w : Word,
    (decode w).opcode.toNat = w.toNat / 2 ^ 28 ∧
    (w.toNat / 2 ^ 28 = 14 ↔ decode w = .reserved14) ∧
    (w.toNat / 2 ^ 28 = 15 ↔ decode w = .reserved15)

/-- R74: the immediate is w[24:0] zero-extended, at most 0x01FFFFFF, and only operation code 13 has one. -/
def Obligations.ImmediateIsZeroExtended : Prop :=
  ∀ w : Word,
    (w.toNat / 2 ^ 28 = 13 →
      ∃ a value, decode w = .li a value ∧ value.toNat = w.toNat % 2 ^ 25 ∧
        value.toNat ≤ 0x01FFFFFF) ∧
    (∀ a value, decode w = .li a value → w.toNat / 2 ^ 28 = 13)

/-- R79: every word decodes to a well-formed term, so the decoder is total and never leaves `Instr`. -/
def Obligations.EveryWordDecodesWellFormed : Prop :=
  ∀ w : Word, (decode w).wellFormed = true

/-- The words of 95_test_vectors.md and R82, one of each family, decode to the instructions shown there
(positions by decision D2). -/
def Obligations.TestVectorWordsDecode : Prop :=
  decode 0x000000D3 = .cmov .r3 .r2 .r3 ∧ decode 0x1000008D = .aread .r2 .r1 .r5 ∧
  decode 0x2000006C = .awrite .r1 .r5 .r4 ∧ decode 0x3FFFFE4A = .add .r1 .r1 .r2 ∧
  decode 0x50000081 = .div .r2 .r0 .r1 ∧ decode 0x7FFFFFFF = .halt ∧
  decode 0x80000035 = .alloc .r6 .r5 ∧ decode 0x90000002 = .free .r2 ∧
  decode 0xA0000003 = .out .r3 ∧ decode 0xB0000001 = .inp .r1 ∧
  decode 0xC0000031 = .loadprog .r6 .r1 ∧ decode 0xDFFFFFFF = .li .r7 0x01FFFFFF ∧
  decode 0xE0000000 = .reserved14 ∧ decode 0xF1234567 = .reserved15

/-! ### The step (40_execution_cycle.md) -/

/-- R92: a step of a running machine is the meaning of the instruction that the word at (0, pc) decodes
to; the step adds nothing around it. -/
def Obligations.StepRunsTheDecodedInstruction : Prop :=
  (∀ (s : State) (w : Word), s.status = .running → fetch s = .ok w → step s = exec (decode w) s) ∧
  (∀ (s : State) (i : Instr), i.wellFormed = true → s.status = .running → fetch s = .ok (encode i) →
    step s = exec i s)

/-- R91: there is a step only in RUNNING; in HALTED and FAULTED there is none. -/
def Obligations.StepOnlyWhileRunning : Prop :=
  (∀ s t : State, step s = .next t → s.status = .running) ∧
  (∀ s : State, s.status = .halted → step s = .fault .halted) ∧
  (∀ s : State, s.status = .faulted → step s = .fault .faulted)

/-- R95: a running machine has a step, except that the step of an input instruction waits while the channel
has no byte and has not ended. -/
def Obligations.OnlyAnInputStepWaits : Prop :=
  ∀ s : State, s.status = .running →
    ((∃ t, step s = .next t) ↔
      ¬ ((∃ w c, fetch s = .ok w ∧ decode w = .inp c) ∧ s.input = [] ∧ s.inputEnded = false)) ∧
    ((∃ w c, fetch s = .ok w ∧ decode w = .inp c) → s.input = [] → s.inputEnded = false →
      step s = .fault .inputWait)

/-- R95, R130, R175: the host ends the wait by delivering a byte or by ending the stream; the step then
completes with that answer. `hostByte` and `hostEnd` are the model's reading of R175 (log entry 8). -/
def Obligations.HostAnswerEndsTheWait : Prop :=
  ∀ (s : State) (c : Reg), s.input = [] → s.inputEnded = false →
    exec (.inp c) s = .fault .inputWait ∧
    (∀ b : Byte, ∃ t, exec (.inp c) (s.hostByte b) = .next t ∧ t.Holds c (b.setWidth 32) ∧ t.input = []) ∧
    (∃ t, exec (.inp c) s.hostEnd = .next t ∧ t.Holds c 0xFFFFFFFF ∧ t.inputEnded = true)

/-- R49, R152: a fetch at or past the end of segment 0 raises OutOfBounds, with FAULT_PC = FAULT_INDEX = pc
and FAULT_WORD = 0 (decision D5). -/
def Obligations.FetchPastTheProgramFaults : Prop :=
  ∀ s : State, s.status = .running → s.mem.programLen ≤ s.pc.toNat →
    ∃ t, step s = .next t ∧ TookFault .outOfBounds 0 s.pc 0 s t

/-- R25: pc is 0 after reset; a step adds 1 to it, except that load program sets it to x[C] and a fault
leaves it. That a fault leaves it is decision D7; that halt adds 1 is decision D8, by which the program cannot
observe the value (both in log entry 16). -/
def Obligations.PcAddsOneExceptLoadProgramAndFault : Prop :=
  State.reset.pc = 0 ∧
  ∀ s t : State, step s = .next t →
    (t.status = .faulted → t.pc = s.pc) ∧
    (t.status ≠ .faulted → ∃ w, fetch s = .ok w ∧
      ((∀ b c, decode w = .loadprog b c → t.pc = (s.reg c).setWidth 33) ∧
       ((∀ b c, decode w ≠ .loadprog b c) → t.pc = s.pc + 1)))

/-- R90: a step leads to HALTED exactly when it runs halt, and to FAULTED only with a fault kind in the
record (the three-state STATUS is decision D6). -/
def Obligations.StatusMovesOnlyByHaltOrFault : Prop :=
  ∀ s t : State, step s = .next t →
    (t.status = .halted ↔ ∃ w, fetch s = .ok w ∧ decode w = .halt) ∧
    (t.status = .faulted → t.fault.kind ≠ .noFault ∧ t.fault.kind ≠ .loadError) ∧
    (t.status ≠ .faulted → t.fault = s.fault)

/-- R94, R152: a fault is precise. Whatever raises it, the step writes STATUS and the record and nothing
else (decision D7). -/
def Obligations.FaultingStepChangesNothingElse : Prop :=
  ∀ s t : State, step s = .next t → t.status = .faulted →
    TookFault t.fault.kind t.fault.handle t.fault.index (currentWord s) s t

/-- R93, for every instruction that completes: it writes no register but the one R22's table gives it, changes
memory only by its own request with its own operands, and moves the channels only by its own transfer; besides
these it writes only pc, and STATUS for halt. -/
def Obligations.InstructionMakesAtMostOneOfEachWrite : Prop :=
  ∀ (i : Instr) (s t : State), exec i s = .next t → s.status = .running → t.status ≠ .faulted →
    (∀ r, i.writtenReg ≠ some r → SameReg r s t) ∧
    MemoryChangesByOwnRequest i s t ∧ IoMovesByOwnTransfer i s t ∧
    t.fault = s.fault ∧ t.config = s.config ∧
    (t.status = s.status ∨ (i = .halt ∧ t.status = .halted))

/-! ### Memory (20_memory.md) -/

/-- R40 at reset: the reset state meets the invariant. The empty image and the parameter values are the
model's choice (log entries 1 and 3). -/
def Obligations.ResetMeetsTheInvariant : Prop := State.reset.Inv

/-- R40, R24, R28: every step keeps the invariant: I1 to I7, the canonical form of memory, pc at most 2^32, an
agreeing fault record, and a value in every register under REG_RESET = ZERO (log entry 4). The canonical form is
the model's representation (log entry 10). -/
def Obligations.StepKeepsTheInvariant : Prop :=
  ∀ s t : State, s.Inv → step s = .next t → t.Inv

/-- R171, R40: every reset that ends RUNNING, from whatever image and input, meets the invariant. -/
def Obligations.BootMeetsTheInvariant : Prop :=
  ∀ (cfg : Config) (image input : List Byte) (ended : Bool), cfg.legal →
    (boot cfg image input ended).status = .running → (boot cfg image input ended).Inv

/-- R46: Read answers InvalidHandle for a handle that is not live, whatever the index, then OutOfBounds for
an index at or past the length, and the word otherwise. -/
def Obligations.ReadChecksHandleThenBounds : Prop :=
  ∀ (m : Memory) (h i : Word),
    (m.segment h = none → memRead m h i = .error ⟨.invalidHandle, h, 0⟩) ∧
    (∀ g, m.segment h = some g →
      (g.len ≤ i.toNat → memRead m h i = .error ⟨.outOfBounds, h, i.setWidth 33⟩) ∧
      (i.toNat < g.len → ∃ v, memRead m h i = .ok v ∧ g.words[i.toNat]? = some v))

/-- R47: Write makes the same checks as Read; then it stores v at (h, i), where Read finds it, and every
other word reads as before. -/
def Obligations.WriteStoresOneWord : Prop :=
  ∀ (m : Memory) (h i v : Word),
    (m.segment h = none → memWrite m h i v = .error ⟨.invalidHandle, h, 0⟩) ∧
    (∀ g, m.segment h = some g →
      (g.len ≤ i.toNat → memWrite m h i v = .error ⟨.outOfBounds, h, i.setWidth 33⟩) ∧
      (i.toNat < g.len → ∃ m', memWrite m h i v = .ok m' ∧ memRead m' h i = .ok v ∧
        (∀ h' i', (h', i') ≠ (h, i) → memRead m' h' i' = memRead m h' i') ∧
        m'.free = m.free ∧ m'.next = m.next))

/-- R45: Free of handle 0 or of a handle that is not live answers InvalidHandle; otherwise the handle is unbound
and becomes the last of FREE, and every other segment and NEXT stay. -/
def Obligations.FreeUnbindsAndAppends : Prop :=
  ∀ (m : Memory) (h : Word),
    (h = 0 ∨ m.segment h = none → memFree h m = .error ⟨.invalidHandle, h, 0⟩) ∧
    (h ≠ 0 → m.segment h ≠ none → ∃ m', memFree h m = .ok m' ∧ m'.segment h = none ∧
      m'.free = m.free ++ [h] ∧ m'.next = m.next ∧
      ∀ h', h' ≠ h → m'.segment h' = m.segment h')

/-- R44: after Free no read reaches the segment's words, and every segment Allocate makes, in whatever memory and under
a reused handle or a fresh one, reads 0 at every index. -/
def Obligations.FreedWordsAreGone : Prop :=
  ∀ (cfg : Config) (m m' : Memory) (h n : Word),
    (memFree h m = .ok m' → ∀ i, memRead m' h i = .error ⟨.invalidHandle, h, 0⟩) ∧
    (memAlloc cfg n m = .ok (h, m') → ∀ i : Word, i.toNat < n.toNat → memRead m' h i = .ok 0)

/-- R42, R122: handles are reused last in, first out (decision D12). After freeing h1 and then h2, the next
two allocations return h2 and then h1, and FREE is as it was. -/
def Obligations.HandlesAreReusedLastInFirstOut : Prop :=
  ∀ (cfg : Config) (m m1 m2 m3 m4 : Memory) (h1 h2 n1 n2 a1 a2 : Word),
    memFree h1 m = .ok m1 → memFree h2 m1 = .ok m2 →
    memAlloc cfg n1 m2 = .ok (a1, m3) → memAlloc cfg n2 m3 = .ok (a2, m4) →
    a1 = h2 ∧ a2 = h1 ∧ m4.free = m.free ∧ m4.next = m.next

/-- R42, R121: in a heap that meets I1 to I5, the handle Allocate returns was not live and is not 0, and it
is live afterwards with the size asked for. -/
def Obligations.AllocateNeverReturnsALiveHandle : Prop :=
  ∀ (cfg : Config) (m m' : Memory) (n h : Word), HeapInv cfg m → memAlloc cfg n m = .ok (h, m') →
    h ≠ 0 ∧ ¬ m.live h ∧ ∃ g, m'.segment h = some g ∧ g.len = n.toNat

/-- R41, R48: TOTAL grows by n for Allocate, by len(h) − len(0) for ReplaceProgram, and shrinks by len(h) for
Free (the accounting is decision D10). -/
def Obligations.TotalFollowsEachRequest : Prop :=
  ∀ (cfg : Config) (m m' : Memory) (h n : Word) (g : Segment), m.wf → HeapInv cfg m →
    (memAlloc cfg n m = .ok (h, m') → m'.total = m.total + n.toNat) ∧
    (m.segment h = some g → memFree h m = .ok m' → m'.total + g.len = m.total) ∧
    (m.segment h = some g → h ≠ 0 → memReplace cfg h m = .ok m' →
      m'.total + m.programLen = m.total + g.len)

/-- R62: after ReplaceProgram(h) with h ≠ 0, a write to segment h leaves segment 0 reading as segment h did before
the replacement, and a write to segment 0 leaves segment h reading as it did then; each leaves every read of the
other segment as it was. -/
def Obligations.ReplacedProgramIsIndependent : Prop :=
  ∀ (cfg : Config) (m m' m'' : Memory) (h i v : Word), h ≠ 0 → memReplace cfg h m = .ok m' →
    (memWrite m' h i v = .ok m'' →
      (∀ j, memRead m'' 0 j = memRead m' 0 j) ∧
      ∃ g, m.segment h = some g ∧ m''.programLen = g.len ∧
        ∀ j : Word, j.toNat < g.len → memRead m'' 0 j = memRead m h j) ∧
    (memWrite m' 0 i v = .ok m'' → ∀ j, memRead m'' h j = memRead m h j)

/-- R60: a word written to (0, i) is what the next fetch of index i returns, the very next instruction's
included. `CanRead` holds of every register under REG_RESET = ZERO (decision D4, log entry 4). -/
def Obligations.NextFetchSeesTheWrite : Prop :=
  ∀ (s t : State) (a b c : Reg) (g : Segment), s.CanRead [a, b, c] → s.reg a = 0 → s.mem.segment 0 = some g →
    (s.reg b).toNat < g.len → exec (.awrite a b c) s = .next t →
    ∀ u : State, u.mem = t.mem → u.pc.toNat = (s.reg b).toNat → fetch u = .ok (s.reg c)

/-- R61: once load program with a non-zero handle completes, a fetch at any pc sees the copied segment and
nothing of the old one. OutOfBounds at or past its length is R49's, decision D5 (log entry 16); the jump with
handle 0 is LoadprogCopiesAndJumps. -/
def Obligations.NextFetchSeesTheNewProgram : Prop :=
  ∀ (s t : State) (b c : Reg), s.reg b ≠ 0 → exec (.loadprog b c) s = .next t → t.status ≠ .faulted →
    ∃ g, s.mem.segment (s.reg b) = some g ∧
      ∀ u : State, u.mem = t.mem →
        (u.pc.toNat < g.len → fetch u = .ok (g.read u.pc.toNat)) ∧
        (g.len ≤ u.pc.toNat → fetch u = .error ⟨.outOfBounds, 0, u.pc⟩)

/-! ### The instructions (10_state.md, 41 to 45) -/

/-- R22: an instruction writes no register but the one the table gives it, cmov only when x[C] ≠ 0, and reads no
register but the table's: with any other value in any other register r, everything else ends the same, and r ends
either with the same value, which the instruction wrote, or with the value it started with. Which registers hold
a value is REG_RESET's (decision D4, log entry 4). -/
def Obligations.InstructionsReadAndWriteOnlyTheirRegisters : Prop :=
  ∀ (i : Instr) (s : State) (r : Reg),
    (∀ t, exec i s = .next t → i.writtenReg ≠ some r → SameReg r s t) ∧
    (∀ a b c t, i = .cmov a b c → s.reg c = 0 → exec i s = .next t → SameReg r s t) ∧
    (r ∉ i.readRegs → ∀ v : Word,
      (∀ t, exec i s = .next t → ∃ t', exec i (s.setReg r v) = .next t' ∧ SameRegsBut r t t' ∧
        ((i.writtenReg = some r ∧ t.Holds r (t.reg r) ∧ t'.Holds r (t.reg r)) ∨
          (SameReg r s t ∧ t'.Holds r v)) ∧
        SameMemory t t' ∧ SameIo t t' ∧ SameControl t t' ∧ t'.pc = t.pc) ∧
      (∀ e, exec i s = .fault e → exec i (s.setReg r v) = .fault e))

/-- R100: cmov writes x[B] to x[A] exactly when x[C] ≠ 0; it always completes and changes nothing else but pc.
Here and below, `CanRead` holds of every register under REG_RESET = ZERO (decision D4, log entry 4). -/
def Obligations.CmovMovesOnNonZero : Prop :=
  ∀ (a b c : Reg) (s : State), s.CanRead [b, c] → ∃ t, exec (.cmov a b c) s = .next t ∧
    (s.reg c ≠ 0 → t.Holds a (s.reg b)) ∧ (s.reg c = 0 → SameReg a s t) ∧
    t.pc = s.pc + 1 ∧ SameRegsBut a s t ∧ SameMemory s t ∧ SameIo s t ∧ SameControl s t

/-- R101: aread loads the word at (x[B], x[C]) into x[A]; a handle that is not live raises InvalidHandle
whatever the index, an index at or past the length raises OutOfBounds. What a fault writes is R152's
(decision D7). -/
def Obligations.AreadLoadsOrFaults : Prop :=
  ∀ (a b c : Reg) (s : State), s.CanRead [b, c] →
    (∀ g, s.mem.segment (s.reg b) = some g → (s.reg c).toNat < g.len →
      ∃ t, exec (.aread a b c) s = .next t ∧ t.Holds a (g.read (s.reg c).toNat) ∧
        t.pc = s.pc + 1 ∧ SameRegsBut a s t ∧ SameMemory s t ∧ SameIo s t ∧ SameControl s t) ∧
    (∀ w, fetch s = .ok w → s.mem.segment (s.reg b) = none →
      ∃ t, exec (.aread a b c) s = .next t ∧ TookFault .invalidHandle (s.reg b) 0 w s t) ∧
    (∀ w g, fetch s = .ok w → s.mem.segment (s.reg b) = some g → g.len ≤ (s.reg c).toNat →
      ∃ t, exec (.aread a b c) s = .next t ∧
        TookFault .outOfBounds (s.reg b) ((s.reg c).setWidth 33) w s t)

/-- R102: awrite stores x[C] at (x[A], x[B]), writes no register, and leaves every other word of memory as it
was; the faults are array read's, with no word written. What a fault writes is R152's (decision D7). -/
def Obligations.AwriteStoresOrFaults : Prop :=
  ∀ (a b c : Reg) (s : State), s.CanRead [a, b, c] →
    (∀ g, s.mem.segment (s.reg a) = some g → (s.reg b).toNat < g.len →
      ∃ t, exec (.awrite a b c) s = .next t ∧ memRead t.mem (s.reg a) (s.reg b) = .ok (s.reg c) ∧
        (∀ h i, (h, i) ≠ (s.reg a, s.reg b) → memRead t.mem h i = memRead s.mem h i) ∧
        SameHandles s t ∧ t.pc = s.pc + 1 ∧ SameRegs s t ∧ SameIo s t ∧ SameControl s t) ∧
    (∀ w, fetch s = .ok w → s.mem.segment (s.reg a) = none →
      ∃ t, exec (.awrite a b c) s = .next t ∧ TookFault .invalidHandle (s.reg a) 0 w s t) ∧
    (∀ w g, fetch s = .ok w → s.mem.segment (s.reg a) = some g → g.len ≤ (s.reg b).toNat →
      ∃ t, exec (.awrite a b c) s = .next t ∧
        TookFault .outOfBounds (s.reg a) ((s.reg b).setWidth 33) w s t)

/-- R110: add writes (x[B] + x[C]) mod 2^32 to x[A]; it always completes and changes nothing else but pc. -/
def Obligations.AddIsModulo : Prop :=
  ∀ (a b c : Reg) (s : State), s.CanRead [b, c] → ∃ t, exec (.add a b c) s = .next t ∧
    a ∉ t.unwritten ∧ (t.reg a).toNat = ((s.reg b).toNat + (s.reg c).toNat) % 2 ^ 32 ∧
    t.pc = s.pc + 1 ∧ SameRegsBut a s t ∧ SameMemory s t ∧ SameIo s t ∧ SameControl s t

/-- R111: mul writes the exact product mod 2^32 to x[A]; it always completes and changes nothing else but pc. -/
def Obligations.MulIsModulo : Prop :=
  ∀ (a b c : Reg) (s : State), s.CanRead [b, c] → ∃ t, exec (.mul a b c) s = .next t ∧
    a ∉ t.unwritten ∧ (t.reg a).toNat = ((s.reg b).toNat * (s.reg c).toNat) % 2 ^ 32 ∧
    t.pc = s.pc + 1 ∧ SameRegsBut a s t ∧ SameMemory s t ∧ SameIo s t ∧ SameControl s t

/-- R112: div writes the unsigned floor of x[B] / x[C] to x[A] when x[C] ≠ 0, and raises DivisionByZero when
x[C] = 0, whatever x[B] is. What the fault writes is R152's (decision D7). -/
def Obligations.DivIsUnsignedFloorOrFaults : Prop :=
  ∀ (a b c : Reg) (s : State), s.CanRead [b, c] →
    (s.reg c ≠ 0 → ∃ t, exec (.div a b c) s = .next t ∧
      a ∉ t.unwritten ∧ (t.reg a).toNat = (s.reg b).toNat / (s.reg c).toNat ∧
      t.pc = s.pc + 1 ∧ SameRegsBut a s t ∧ SameMemory s t ∧ SameIo s t ∧ SameControl s t) ∧
    (∀ w, fetch s = .ok w → s.reg c = 0 →
      ∃ t, exec (.div a b c) s = .next t ∧ TookFault .divisionByZero 0 0 w s t)

/-- R113: each bit of x[A] becomes the NAND of the bits of x[B] and x[C]; nand always completes and changes
nothing else but pc. -/
def Obligations.NandIsBitwise : Prop :=
  ∀ (a b c : Reg) (s : State), s.CanRead [b, c] → ∃ t, exec (.nand a b c) s = .next t ∧
    a ∉ t.unwritten ∧ (∀ k, k < 32 → (t.reg a).getLsbD k = !((s.reg b).getLsbD k && (s.reg c).getLsbD k)) ∧
    t.pc = s.pc + 1 ∧ SameRegsBut a s t ∧ SameMemory s t ∧ SameIo s t ∧ SameControl s t

/-- R115: addition and multiplication commute and associate modulo 2^32, dividing by 1 gives the dividend,
and 0 divided by anything but 0 gives 0, as instructions on registers. -/
def Obligations.ArithmeticLawsHold : Prop :=
  (∀ a b c s, exec (.add a b c) s = exec (.add a c b) s) ∧
  (∀ a b c s, exec (.mul a b c) s = exec (.mul a c b) s) ∧
  (∀ x y z, aluAdd (aluAdd x y) z = aluAdd x (aluAdd y z)) ∧
  (∀ x y z, aluMul (aluMul x y) z = aluMul x (aluMul y z)) ∧
  (∀ x, aluDiv x 1 = .ok x) ∧ (∀ y, y ≠ 0 → aluDiv 0 y = .ok 0) ∧
  (∀ x y, x.toNat < y.toNat → aluDiv x y = .ok 0)

/-- R120: halt sets STATUS to HALTED and adds 1 to pc (decision D8), and changes no register, no heap state and
no I/O. -/
def Obligations.HaltOnlyStops : Prop :=
  ∀ s : State, ∃ t, exec .halt s = .next t ∧ t.status = .halted ∧ t.pc = s.pc + 1 ∧
    SameRegs s t ∧ SameMemory s t ∧ SameIo s t ∧ t.fault = s.fault ∧ t.config = s.config

/-- R121, R42, R43: alloc makes a zeroed segment of x[C] words and writes its handle to x[B]: the most recently
freed handle, or NEXT when FREE is empty. Every other segment reads as before. The limits and the reuse
order are decisions D9, D10 and D12. -/
def Obligations.AllocMakesAZeroedSegment : Prop :=
  ∀ (b c : Reg) (s : State), s.CanRead [c] → Admitted s.config s.mem.total (s.reg c).toNat →
    (∀ (l : List Word) (h : Word), s.mem.free = l ++ [h] →
      ∃ t, exec (.alloc b c) s = .next t ∧ t.Holds b h ∧
        (∃ g, t.mem.segment h = some g ∧ g.len = (s.reg c).toNat ∧
          ∀ i : Word, i.toNat < g.len → memRead t.mem h i = .ok 0) ∧
        (∀ h' i, h' ≠ h → memRead t.mem h' i = memRead s.mem h' i) ∧
        t.mem.free = l ∧ t.mem.next = s.mem.next ∧
        t.pc = s.pc + 1 ∧ SameRegsBut b s t ∧ SameIo s t ∧ SameControl s t) ∧
    (s.mem.free = [] → s.mem.next < 2 ^ 32 →
      ∃ t, exec (.alloc b c) s = .next t ∧ b ∉ t.unwritten ∧ (t.reg b).toNat = s.mem.next ∧
        (∃ g, t.mem.segment (t.reg b) = some g ∧ g.len = (s.reg c).toNat ∧
          ∀ i : Word, i.toNat < g.len → memRead t.mem (t.reg b) i = .ok 0) ∧
        (∀ h' i, h' ≠ t.reg b → memRead t.mem h' i = memRead s.mem h' i) ∧
        t.mem.free = [] ∧ t.mem.next = s.mem.next + 1 ∧
        t.pc = s.pc + 1 ∧ SameRegsBut b s t ∧ SameIo s t ∧ SameControl s t)

/-- R121, R41, R42: alloc raises AllocationFailure, with handle 0 and the size as index, when the size or the
capacity is exceeded, or when no handle is left (decisions D9, D10, D11). What the fault writes is R152's
(decision D7, log entry 16). -/
def Obligations.AllocFailsBeyondTheLimits : Prop :=
  ∀ (b c : Reg) (s : State) (w : Word), s.CanRead [c] → fetch s = .ok w →
    (¬ Admitted s.config s.mem.total (s.reg c).toNat ∨
      (s.mem.free = [] ∧ 2 ^ 32 ≤ s.mem.next)) →
    ∃ t, exec (.alloc b c) s = .next t ∧
      TookFault .allocationFailure 0 ((s.reg c).setWidth 33) w s t

/-- R122, R45: free unbinds the handle in x[C] and appends it to FREE, writes no register, and leaves every other
segment as it was; handle 0 and a handle that is not live raise InvalidHandle. What the fault writes is R152's
(decision D7). -/
def Obligations.FreeUnbindsOrFaults : Prop :=
  ∀ (c : Reg) (s : State), s.CanRead [c] →
    (∀ g, s.reg c ≠ 0 → s.mem.segment (s.reg c) = some g →
      ∃ t, exec (.free c) s = .next t ∧ t.mem.segment (s.reg c) = none ∧
        t.mem.free = s.mem.free ++ [s.reg c] ∧ t.mem.next = s.mem.next ∧
        (∀ h i, h ≠ s.reg c → memRead t.mem h i = memRead s.mem h i) ∧
        t.pc = s.pc + 1 ∧ SameRegs s t ∧ SameIo s t ∧ SameControl s t) ∧
    (∀ w, fetch s = .ok w → (s.reg c = 0 ∨ s.mem.segment (s.reg c) = none) →
      ∃ t, exec (.free c) s = .next t ∧ TookFault .invalidHandle (s.reg c) 0 w s t)

/-- R132: out appends the byte in x[C] to OUTPUT when it is 0 to 255. Above 255, it raises OutputOutOfRange under
OUTPUT_POLICY = FAULT and emits x[C] mod 256 under TRUNCATE (decision D14). What the
fault writes is R152's (decision D7, log entry 16). -/
def Obligations.OutEmitsOneByteOrFaults : Prop :=
  ∀ (c : Reg) (s : State), s.CanRead [c] →
    (((s.reg c).toNat ≤ 255 ∨ s.config.outputPolicy = .truncate) →
      ∃ t v, exec (.out c) s = .next t ∧ t.output = s.output ++ [v] ∧
        v.toNat = (s.reg c).toNat % 256 ∧ SameInput s t ∧
        t.pc = s.pc + 1 ∧ SameRegs s t ∧ SameMemory s t ∧ SameControl s t) ∧
    (∀ w, fetch s = .ok w → 255 < (s.reg c).toNat → s.config.outputPolicy = .fault →
      ∃ t, exec (.out c) s = .next t ∧ TookFault .outputOutOfRange 0 0 w s t)

/-- R133, R130: in consumes the next byte and writes it zero-extended to x[C]; once the stream has ended it writes
0xFFFFFFFF, and goes on doing so (END is sticky by decision D16). -/
def Obligations.InReadsAByteOrTheSentinel : Prop :=
  ∀ (c : Reg) (s : State),
    (∀ (v : Byte) (rest : List Byte), s.input = v :: rest →
      ∃ t, exec (.inp c) s = .next t ∧ t.Holds c (v.setWidth 32) ∧ t.input = rest ∧
        t.inputEnded = s.inputEnded ∧ t.output = s.output ∧
        t.pc = s.pc + 1 ∧ SameRegsBut c s t ∧ SameMemory s t ∧ SameControl s t) ∧
    (s.input = [] → s.inputEnded = true →
      ∃ t, exec (.inp c) s = .next t ∧ t.Holds c 0xFFFFFFFF ∧ SameIo s t ∧
        t.pc = s.pc + 1 ∧ SameRegsBut c s t ∧ SameMemory s t ∧ SameControl s t)

/-- R140, R48: load program with handle 0 is a jump to x[C]; with a live handle it makes segment 0 a copy of that
segment, keeps every other segment, FREE and NEXT, and jumps. The target is not checked. -/
def Obligations.LoadprogCopiesAndJumps : Prop :=
  ∀ (b c : Reg) (s : State), s.CanRead [b, c] →
    (s.reg b = 0 → ∃ t, exec (.loadprog b c) s = .next t ∧ t.pc = (s.reg c).setWidth 33 ∧
      SameRegs s t ∧ SameMemory s t ∧ SameIo s t ∧ SameControl s t) ∧
    (∀ g, s.reg b ≠ 0 → s.mem.segment (s.reg b) = some g →
      (∀ k, s.config.heapCapacityWords = some k → s.mem.total - s.mem.programLen + g.len ≤ k) →
      ∃ t, exec (.loadprog b c) s = .next t ∧ t.pc = (s.reg c).setWidth 33 ∧
        t.mem.programLen = g.len ∧
        (∀ i : Word, i.toNat < g.len → memRead t.mem 0 i = memRead s.mem (s.reg b) i) ∧
        (∀ h i, h ≠ 0 → memRead t.mem h i = memRead s.mem h i) ∧
        SameHandles s t ∧ SameRegs s t ∧ SameIo s t ∧ SameControl s t)

/-- R140, R48: load program raises InvalidHandle for a non-zero handle that is not live (decision D13), and
AllocationFailure, with the handle and the length, when the copy exceeds the capacity (decision D10). What a
fault writes is R152's (decision D7, log entry 16). -/
def Obligations.LoadprogFaults : Prop :=
  ∀ (b c : Reg) (s : State) (w : Word), s.CanRead [b, c] → fetch s = .ok w → s.reg b ≠ 0 →
    (s.mem.segment (s.reg b) = none →
      ∃ t, exec (.loadprog b c) s = .next t ∧ TookFault .invalidHandle (s.reg b) 0 w s t) ∧
    (∀ g k, s.mem.segment (s.reg b) = some g → s.config.heapCapacityWords = some k →
      k < s.mem.total - s.mem.programLen + g.len →
      ∃ t, exec (.loadprog b c) s = .next t ∧
        TookFault .allocationFailure (s.reg b) (BitVec.ofNat 33 g.len) w s t)

/-- R141: li writes the immediate to x[A]; it always completes and changes nothing else but pc. -/
def Obligations.LiLoadsTheImmediate : Prop :=
  ∀ (a : Reg) (value : Word) (s : State), ∃ t, exec (.li a value) s = .next t ∧ t.Holds a value ∧
    t.pc = s.pc + 1 ∧ SameRegsBut a s t ∧ SameMemory s t ∧ SameIo s t ∧ SameControl s t

/-! ### Fatal errors, reset and the host (60, 70) -/

/-- R151, R77: operation codes 14 and 15 raise UnknownOperation whatever the other 28 bits are, with the word in
the record and no other effect. -/
def Obligations.UndefinedCodesRaiseUnknownOperation : Prop :=
  ∀ (s : State) (w : Word), fetch s = .ok w →
    (∃ t, exec .reserved14 s = .next t ∧ TookFault .unknownOperation 0 0 w s t) ∧
    (∃ t, exec .reserved15 s = .next t ∧ TookFault .unknownOperation 0 0 w s t) ∧
    (s.status = .running → 14 ≤ w.toNat / 2 ^ 28 →
      ∃ t, step s = .next t ∧ TookFault .unknownOperation 0 0 w s t)

/-- R37, R171: what reset leaves. Registers 0 is decision D4; the empty image, the ended input and the parameter
values are the model's choice (log entries 1 to 3). -/
def Obligations.ResetLeavesTheSpecsValues : Prop :=
  (∀ r, State.reset.Holds r 0) ∧ State.reset.pc = 0 ∧ State.reset.status = .running ∧
  State.reset.fault = ⟨.noFault, 0, 0, 0, 0⟩ ∧ State.reset.mem.free = [] ∧ State.reset.mem.next = 1 ∧
  State.reset.output = [] ∧ (∀ h, State.reset.mem.live h ↔ h = 0) ∧
  State.reset = boot Config.standard [] [] true

/-- R171, R52: an image of 4·N bytes within the limits becomes segment 0, one word for each 4 bytes, the first
byte in bits 31:24; the machine is RUNNING at pc 0 with a clear record, handle 0 the only live one, an empty FREE,
NEXT = 1 and an empty OUTPUT; every register holds 0 under REG_RESET = ZERO (decision D4) and none a value under
UNWRITTEN. -/
def Obligations.BootLoadsTheImageBigEndian : Prop :=
  ∀ (cfg : Config) (image input : List Byte) (ended : Bool) (n : Nat), image.length = 4 * n →
    n ≤ cfg.maxSegmentWords → n ≤ 2 ^ 32 → (∀ k, cfg.heapCapacityWords = some k → n ≤ k) →
    (boot cfg image input ended).status = .running ∧ (boot cfg image input ended).pc = 0 ∧
    (boot cfg image input ended).mem.free = [] ∧ (boot cfg image input ended).mem.next = 1 ∧
    (cfg.regReset = .zero → ∀ r, (boot cfg image input ended).Holds r 0) ∧
    (cfg.regReset = .unwritten → ∀ r, r ∈ (boot cfg image input ended).unwritten) ∧
    (boot cfg image input ended).fault = ⟨.noFault, 0, 0, 0, 0⟩ ∧
    (∀ h, (boot cfg image input ended).mem.live h ↔ h = 0) ∧
    (boot cfg image input ended).mem.programLen = n ∧ (boot cfg image input ended).output = [] ∧
    ∀ (k : Word) (b0 b1 b2 b3 : Byte), k.toNat < n →
      image[4 * k.toNat]? = some b0 → image[4 * k.toNat + 1]? = some b1 →
      image[4 * k.toNat + 2]? = some b2 → image[4 * k.toNat + 3]? = some b3 →
      ∃ v, memRead (boot cfg image input ended).mem 0 k = .ok v ∧
        v.toNat = b0.toNat * 2 ^ 24 + b1.toNat * 2 ^ 16 + b2.toNat * 2 ^ 8 + b3.toNat

/-- R172: an image whose length is not a multiple of 4, or of more words than a limit allows, is a LoadError: the
machine is FAULTED, every other field of the record is 0, OUTPUT is empty and no instruction runs (the
size limits are decision D19). -/
def Obligations.MalformedImageIsALoadError : Prop :=
  ∀ (cfg : Config) (image input : List Byte) (ended : Bool),
    (image.length % 4 ≠ 0 ∨ cfg.maxSegmentWords < image.length / 4 ∨
      ∃ k, cfg.heapCapacityWords = some k ∧ k < image.length / 4) →
    (boot cfg image input ended).status = .faulted ∧
    (boot cfg image input ended).fault = ⟨.loadError, 0, 0, 0, 0⟩ ∧
    (boot cfg image input ended).output = [] ∧
    step (boot cfg image input ended) = .fault .faulted

/-- R131, R9: along every step OUTPUT only grows at its end, by at most one byte, INPUT only loses at most its first
byte, the end mark stays, and the parameters stay. -/
def Obligations.ChannelsMoveByAtMostOneByte : Prop :=
  ∀ s t : State, step s = .next t →
    (t.output = s.output ∨ ∃ b, t.output = s.output ++ [b]) ∧
    (t.input = s.input ∨ ∃ b, s.input = b :: t.input) ∧
    t.inputEnded = s.inputEnded ∧ t.config = s.config

/-- R81 for every word, the fields as numbers: with a, b, c the registers that w[8:6], w[5:3], w[2:0] number and d
the one that w[27:25] numbers (R72, R73, R75), each operation code decodes to its instruction of R76 with the
operands that row uses. The positions of format S are decision D2's (log entry 6), ignoring the rest D3's. -/
def Obligations.EveryWordDecodesByItsFields : Prop :=
  ∀ (w : Word) (a b c d : Reg),
    a.bits.toNat = w.toNat / 2 ^ 6 % 8 → b.bits.toNat = w.toNat / 2 ^ 3 % 8 → c.bits.toNat = w.toNat % 8 →
    d.bits.toNat = w.toNat / 2 ^ 25 % 8 →
    (w.toNat / 2 ^ 28 = 0 → decode w = .cmov a b c) ∧ (w.toNat / 2 ^ 28 = 1 → decode w = .aread a b c) ∧
    (w.toNat / 2 ^ 28 = 2 → decode w = .awrite a b c) ∧ (w.toNat / 2 ^ 28 = 3 → decode w = .add a b c) ∧
    (w.toNat / 2 ^ 28 = 4 → decode w = .mul a b c) ∧ (w.toNat / 2 ^ 28 = 5 → decode w = .div a b c) ∧
    (w.toNat / 2 ^ 28 = 6 → decode w = .nand a b c) ∧ (w.toNat / 2 ^ 28 = 7 → decode w = .halt) ∧
    (w.toNat / 2 ^ 28 = 8 → decode w = .alloc b c) ∧ (w.toNat / 2 ^ 28 = 9 → decode w = .free c) ∧
    (w.toNat / 2 ^ 28 = 10 → decode w = .out c) ∧ (w.toNat / 2 ^ 28 = 11 → decode w = .inp c) ∧
    (w.toNat / 2 ^ 28 = 12 → decode w = .loadprog b c) ∧
    (w.toNat / 2 ^ 28 = 13 → decode w = .li d (BitVec.ofNat 32 (w.toNat % 2 ^ 25))) ∧
    (w.toNat / 2 ^ 28 = 14 → decode w = .reserved14) ∧ (w.toNat / 2 ^ 28 = 15 → decode w = .reserved15)

/-- R23, V3: an instruction that reads a register which holds no value raises V3's fault, precisely and before its own
checks, and no other does; no instruction does in a state of a run under REG_RESET = ZERO (decision D4, log
entry 4; what a fault writes is R152's, decision D7). -/
def Obligations.ReadOfAnUnwrittenRegisterFaults : Prop :=
  ∀ (i : Instr) (s : State),
    (∀ w, fetch s = .ok w → (∃ r ∈ i.readRegs, r ∈ s.unwritten) →
      ∃ t, exec i s = .next t ∧ TookFault .unwrittenRegister 0 0 w s t) ∧
    (∀ t, exec i s = .next t → s.fault.kind ≠ .unwrittenRegister → t.fault.kind = .unwrittenRegister →
      ∃ r ∈ i.readRegs, r ∈ s.unwritten) ∧
    (s.Inv → s.config.regReset = .zero → s.status = .running → ∀ t, exec i s = .next t →
      t.fault.kind ≠ .unwrittenRegister)

/-- R23, R174: a register holds a value once an instruction has written it, and goes on doing so: a step adds no
register to those that hold none, and takes out at most the one that the instruction it runs writes (decision D4,
log entry 4). -/
def Obligations.WrittenRegistersKeepAValue : Prop :=
  ∀ s t : State, step s = .next t →
    (∀ r, r ∈ t.unwritten → r ∈ s.unwritten) ∧
    (∀ r, r ∈ s.unwritten → r ∉ t.unwritten → ∃ w, fetch s = .ok w ∧ (decode w).writtenReg = some r) ∧
    (∀ w r, fetch s = .ok w → t.status ≠ .faulted → (decode w).writtenReg = some r →
      r ∉ t.unwritten ∨ ∃ b c, decode w = .cmov r b c ∧ s.reg c = 0)
end

