-- ==== Sys2Proof/Laws/Assoc.lean ====
section
/-! SUPPORT. Read-after-write, canonical form and size of the sparse lists that hold memory. -/

namespace Sys2Proof.Machine

variable {α : Type}

theorem assocGet_put_same (k : Nat) (v : α) (l : List (Nat × α)) :
    assocGet k (assocPut k v l) = some v := by
  induction l with
  | nil => simp [assocPut, assocGet]
  | cons p rest ih =>
    obtain ⟨k', v'⟩ := p
    unfold assocPut
    split
    · simp [assocGet]
    · split
      · simp [assocGet]
      · next hne => simp [assocGet, hne, ih]

theorem assocGet_put_other {j k : Nat} (v : α) (l : List (Nat × α)) (h : j ≠ k) :
    assocGet j (assocPut k v l) = assocGet j l := by
  induction l with
  | nil => simp [assocPut, assocGet, h]
  | cons p rest ih =>
    obtain ⟨k', v'⟩ := p
    unfold assocPut
    split
    · simp [assocGet, h]
    · split
      · next heq => subst heq; simp [assocGet, h]
      · simp [assocGet, ih]

theorem assocGet_drop_same (k : Nat) (l : List (Nat × α)) : assocGet k (assocDrop k l) = none := by
  unfold assocDrop
  induction l with
  | nil => rfl
  | cons p rest ih =>
    obtain ⟨k', v'⟩ := p
    by_cases hk : k' = k
    · simpa [List.filter_cons, hk] using ih
    · simpa [List.filter_cons, hk, assocGet, Ne.symm hk] using ih

theorem assocGet_drop_other {j k : Nat} (l : List (Nat × α)) (h : j ≠ k) :
    assocGet j (assocDrop k l) = assocGet j l := by
  unfold assocDrop
  induction l with
  | nil => rfl
  | cons p rest ih =>
    obtain ⟨k', v'⟩ := p
    by_cases hk : k' = k
    · subst hk; simpa [List.filter_cons, assocGet, h] using ih
    · simp [hk, assocGet, ih]

/-- What is listed is in the list. -/
theorem mem_of_assocGet {k : Nat} {v : α} {l : List (Nat × α)} (h : assocGet k l = some v) :
    (k, v) ∈ l := by
  induction l with
  | nil => simp [assocGet] at h
  | cons p rest ih =>
    obtain ⟨k', v'⟩ := p
    unfold assocGet at h
    split at h
    · next heq => subst heq; simp_all
    · exact List.mem_cons_of_mem _ (ih h)

/-- In a rising list, what is in the list is listed. -/
theorem assocGet_of_mem {k : Nat} {v : α} {l : List (Nat × α)} (hl : assocRising l)
    (h : (k, v) ∈ l) : assocGet k l = some v := by
  induction l with
  | nil => simp at h
  | cons p rest ih =>
    obtain ⟨k', v'⟩ := p
    rw [assocRising, List.pairwise_cons] at hl
    rcases List.mem_cons.mp h with h | h
    · cases h; simp [assocGet]
    · have : k' < k := hl.1 _ h
      simp [assocGet, Nat.ne_of_gt this, ih hl.2 h]

/-- A pair of the list after a put is the one put or one that was there. -/
theorem mem_assocPut {k : Nat} {v : α} {l : List (Nat × α)} {p : Nat × α}
    (h : p ∈ assocPut k v l) : p = (k, v) ∨ p ∈ l := by
  induction l with
  | nil => simpa [assocPut] using h
  | cons q rest ih =>
    obtain ⟨k', v'⟩ := q
    unfold assocPut at h
    split at h
    · simpa using h
    · split at h
      · rcases List.mem_cons.mp h with h | h
        · exact .inl h
        · exact .inr (List.mem_cons_of_mem _ h)
      · rcases List.mem_cons.mp h with h | h
        · exact .inr (h ▸ List.mem_cons_self)
        · exact (ih h).imp id (List.mem_cons_of_mem _)

theorem assocRising_put (k : Nat) (v : α) {l : List (Nat × α)} (hl : assocRising l) :
    assocRising (assocPut k v l) := by
  induction l with
  | nil => simp [assocPut, assocRising]
  | cons q rest ih =>
    obtain ⟨k', v'⟩ := q
    have hl' := List.pairwise_cons.mp hl
    unfold assocPut
    split
    · next hlt =>
      refine List.pairwise_cons.mpr ⟨fun p hp => ?_, hl⟩
      rcases List.mem_cons.mp hp with h | h
      · subst h; exact hlt
      · exact Nat.lt_trans hlt (hl'.1 p h)
    · split
      · next heq => subst heq; exact List.pairwise_cons.mpr ⟨hl'.1, hl'.2⟩
      · refine List.pairwise_cons.mpr ⟨fun p hp => ?_, ih hl'.2⟩
        rcases mem_assocPut hp with h | h
        · subst h; simp only; omega
        · exact hl'.1 p h

theorem mem_assocDrop {k : Nat} {l : List (Nat × α)} {p : Nat × α} (h : p ∈ assocDrop k l) : p ∈ l :=
  (List.mem_filter.mp h).1

theorem assocRising_drop (k : Nat) {l : List (Nat × α)} (hl : assocRising l) :
    assocRising (assocDrop k l) :=
  List.Pairwise.filter _ hl

/-! ### Sums of a measure over the list -/

theorem sum_assocPut_fresh (f : α → Nat) {k : Nat} (v : α) {l : List (Nat × α)}
    (h : assocGet k l = none) :
    ((assocPut k v l).map (fun b => f b.2)).sum = (l.map (fun b => f b.2)).sum + f v := by
  induction l with
  | nil => simp [assocPut]
  | cons q rest ih =>
    obtain ⟨k', v'⟩ := q
    unfold assocGet at h
    split at h
    · simp at h
    · next hne =>
      unfold assocPut
      split
      · simp; omega
      · simp [ih h]; omega

theorem sum_assocPut_listed (f : α → Nat) {k : Nat} (v : α) {u : α} {l : List (Nat × α)}
    (hl : assocRising l) (h : assocGet k l = some u) :
    ((assocPut k v l).map (fun b => f b.2)).sum + f u = (l.map (fun b => f b.2)).sum + f v := by
  induction l with
  | nil => simp [assocGet] at h
  | cons q rest ih =>
    obtain ⟨k', v'⟩ := q
    have hl' := List.pairwise_cons.mp hl
    unfold assocGet at h
    unfold assocPut
    split at h
    · next heq => subst heq; cases h; simp; omega
    · next hne =>
      have hlt : k' < k := hl'.1 _ (mem_of_assocGet h)
      rw [if_neg (by omega), if_neg hne]
      have := ih hl'.2 h
      simp; omega

theorem assocDrop_unlisted {k : Nat} {l : List (Nat × α)} (h : assocGet k l = none) :
    assocDrop k l = l := by
  induction l with
  | nil => rfl
  | cons q rest ih =>
    obtain ⟨k', v'⟩ := q
    unfold assocGet at h
    split at h
    · simp at h
    · next hne =>
      unfold assocDrop at ih ⊢
      simp [Ne.symm hne, ih h]

theorem sum_assocDrop_listed (f : α → Nat) {k : Nat} {u : α} {l : List (Nat × α)}
    (hl : assocRising l) (h : assocGet k l = some u) :
    ((assocDrop k l).map (fun b => f b.2)).sum + f u = (l.map (fun b => f b.2)).sum := by
  induction l with
  | nil => simp [assocGet] at h
  | cons q rest ih =>
    obtain ⟨k', v'⟩ := q
    have hl' := List.pairwise_cons.mp hl
    unfold assocGet at h
    split at h
    · next heq =>
      subst heq; cases h
      have hn : assocGet k rest = none := by
        cases hg : assocGet k rest with
        | none => rfl
        | some w => exact absurd (hl'.1 _ (mem_of_assocGet hg)) (Nat.lt_irrefl _)
      have hd := assocDrop_unlisted hn
      unfold assocDrop at hd ⊢
      simp [hd]; omega
    · next hne =>
      have hi := ih hl'.2 h
      unfold assocDrop at hi ⊢
      simp [Ne.symm hne]; omega

/-- A listed value's measure is part of the sum. -/
theorem le_sum_of_listed (f : α → Nat) {k : Nat} {u : α} {l : List (Nat × α)}
    (h : assocGet k l = some u) : f u ≤ (l.map (fun b => f b.2)).sum := by
  have := List.single_le_sum (l := l.map (fun b => f b.2)) (by simp) (f u)
    (List.mem_map.mpr ⟨(k, u), mem_of_assocGet h, rfl⟩)
  exact this

end Sys2Proof.Machine
end

