-- ==== Sys2Proof/Laws/Encoding.lean ====
section
/-! SUPPORT. What each field of an encoded word reads as. -/

namespace Sys2Proof

@[simp] theorem Reg.ofBits_bits (r : Reg) : Reg.ofBits r.bits = r := by cases r <;> rfl

@[simp] theorem Reg.bits_ofBits (k : BitVec 3) : (Reg.ofBits k).bits = k := by revert k; decide

/-- The operation code is the word divided by 2^28 (R71). -/
theorem opcode_toNat (w : Word) : (opcode w).toNat = w.toNat / 2 ^ 28 := by
  have := w.isLt
  simp only [opcode, opLo, BitVec.extractLsb'_toNat, Nat.shiftRight_eq_div_pow]
  omega

/-- A selector read and placed again is its field of the word. -/
theorem placeReg_selector (w : Word) (lo : Nat) :
    placeReg (selector w lo) lo = (w.extractLsb' lo 3).setWidth 32 <<< lo := by
  simp [placeReg, selector]

/-- A field of a word that another part of it does not reach: OR distributes over fields. -/
theorem extract_or (x y : Word) (lo n : Nat) :
    (x ||| y).extractLsb' lo n = x.extractLsb' lo n ||| y.extractLsb' lo n :=
  BitVec.extractLsb'_or

theorem and_or_mask (x y m : Word) : (x ||| y) &&& m = (x &&& m) ||| (y &&& m) := by
  ext i hi; simp [Bool.and_or_distrib_right]

/-- The big-endian word as a number (R52, R171). -/
theorem wordOfBytes_toNat (b0 b1 b2 b3 : Byte) :
    (wordOfBytes b0 b1 b2 b3).toNat =
      b0.toNat * 2 ^ 24 + b1.toNat * 2 ^ 16 + b2.toNat * 2 ^ 8 + b3.toNat := by
  have h0 := b0.isLt; have h1 := b1.isLt; have h2 := b2.isLt; have h3 := b3.isLt
  have part : ∀ (b : Byte) (k : Nat), k ≤ 24 →
      (b.setWidth 32 <<< k : Word).toNat = b.toNat <<< k := by
    intro b k hk
    have hb : b.toNat * 2 ^ k < 2 ^ 8 * 2 ^ 24 :=
      Nat.lt_of_lt_of_le (Nat.mul_lt_mul_of_pos_right b.isLt (Nat.two_pow_pos k))
        (Nat.mul_le_mul_left _ (Nat.pow_le_pow_right (by decide) hk))
    have hw : (b.setWidth 32 : Word).toNat = b.toNat := by
      have := b.isLt
      rw [BitVec.toNat_setWidth, Nat.mod_eq_of_lt (by omega)]
    rw [BitVec.toNat_shiftLeft, hw, Nat.shiftLeft_eq, Nat.mod_eq_of_lt (by omega)]
  have e3 : (b3.setWidth 32 : Word).toNat = b3.toNat := by
    rw [BitVec.toNat_setWidth, Nat.mod_eq_of_lt (by omega)]
  have s1 : b0.toNat <<< 24 ||| b1.toNat <<< 16 = (b0.toNat * 2 ^ 8 + b1.toNat) <<< 16 := by
    rw [Nat.shiftLeft_add_eq_or_of_lt (show b1.toNat <<< 16 < 2 ^ 24 by
      rw [Nat.shiftLeft_eq]; omega) b0.toNat |>.symm]
    simp only [Nat.shiftLeft_eq]; omega
  have s2 : (b0.toNat * 2 ^ 8 + b1.toNat) <<< 16 ||| b2.toNat <<< 8 =
      ((b0.toNat * 2 ^ 8 + b1.toNat) * 2 ^ 8 + b2.toNat) <<< 8 := by
    rw [Nat.shiftLeft_add_eq_or_of_lt (show b2.toNat <<< 8 < 2 ^ 16 by
      rw [Nat.shiftLeft_eq]; omega) _ |>.symm]
    simp only [Nat.shiftLeft_eq]; omega
  rw [wordOfBytes, BitVec.toNat_or, BitVec.toNat_or, BitVec.toNat_or, part b0 24 (by omega),
    part b1 16 (by omega), part b2 8 (by omega), e3, s1, s2,
    ← Nat.shiftLeft_add_eq_or_of_lt (by omega : b3.toNat < 2 ^ 8)]
  simp only [Nat.shiftLeft_eq]; omega

/-! ### A placed selector read back through each field -/

theorem placeReg_A (r : Reg) :
    (placeReg r selALo).extractLsb' opLo 4 = 0 ∧ (placeReg r selALo).extractLsb' selALo 3 = r.bits ∧
    (placeReg r selALo).extractLsb' selBLo 3 = 0 ∧ (placeReg r selALo).extractLsb' selCLo 3 = 0 := by
  cases r <;> exact ⟨rfl, rfl, rfl, rfl⟩

theorem placeReg_B (r : Reg) :
    (placeReg r selBLo).extractLsb' opLo 4 = 0 ∧ (placeReg r selBLo).extractLsb' selALo 3 = 0 ∧
    (placeReg r selBLo).extractLsb' selBLo 3 = r.bits ∧ (placeReg r selBLo).extractLsb' selCLo 3 = 0 := by
  cases r <;> exact ⟨rfl, rfl, rfl, rfl⟩

theorem placeReg_C (r : Reg) :
    (placeReg r selCLo).extractLsb' opLo 4 = 0 ∧ (placeReg r selCLo).extractLsb' selALo 3 = 0 ∧
    (placeReg r selCLo).extractLsb' selBLo 3 = 0 ∧ (placeReg r selCLo).extractLsb' selCLo 3 = r.bits := by
  cases r <;> exact ⟨rfl, rfl, rfl, rfl⟩

theorem placeReg_A13 (r : Reg) :
    (placeReg r selA13Lo).extractLsb' opLo 4 = 0 ∧
    (placeReg r selA13Lo).extractLsb' selA13Lo 3 = r.bits ∧
    (placeReg r selA13Lo).extractLsb' 0 25 = 0 := by
  cases r <;> exact ⟨rfl, rfl, rfl⟩

/-- Fields of a three-selector word whose base has only opcode bits. -/
theorem stdWord_opcode (base : Word) (a b c : Reg) :
    opcode (stdWord base a b c) = base.extractLsb' opLo 4 := by
  simp only [opcode, stdWord, extract_or, placeReg_A, placeReg_B, placeReg_C]
  simp

theorem stdWord_A {base : Word} (h : base.extractLsb' selALo 3 = 0) (a b c : Reg) :
    selector (stdWord base a b c) selALo = a := by
  simp only [selector, stdWord, extract_or, placeReg_A, placeReg_B, placeReg_C, h]
  simp

theorem stdWord_B {base : Word} (h : base.extractLsb' selBLo 3 = 0) (a b c : Reg) :
    selector (stdWord base a b c) selBLo = b := by
  simp only [selector, stdWord, extract_or, placeReg_A, placeReg_B, placeReg_C, h]
  simp

theorem stdWord_C {base : Word} (h : base.extractLsb' selCLo 3 = 0) (a b c : Reg) :
    selector (stdWord base a b c) selCLo = c := by
  simp only [selector, stdWord, extract_or, placeReg_A, placeReg_B, placeReg_C, h]
  simp

/-- An in-range immediate has no bit from 25 up. -/
theorem imm_high_bits {value : Word} (h : immInRange value) {k : Nat} (hk : 25 ≤ k) :
    value.getLsbD k = false :=
  Nat.testBit_lt_two_pow (Nat.lt_of_lt_of_le (Nat.lt_of_le_of_lt h (by decide : 0x01FFFFFF < 2 ^ 25))
    (Nat.pow_le_pow_right (by decide) hk))

end Sys2Proof
end

