-- ==== Sys2Proof/Laws/Memory.lean ====
section
/-! SUPPORT. What each request of the memory controller can answer, once for each, and that every memory
operation keeps the canonical form. -/

namespace Sys2Proof.Machine

/-! ### Segments -/

@[simp] theorem Segment.write_len (g : Segment) (i : Nat) (v : Word) : (g.write i v).len = g.len := rfl

@[simp] theorem Segment.zeros_len (n : Nat) : (Segment.zeros n).len = n := rfl

@[simp] theorem Segment.zeros_read (n i : Nat) : (Segment.zeros n).read i = 0 := rfl

@[simp] theorem Segment.ofWords_len (ws : List Word) : (Segment.ofWords ws).len = ws.length := rfl

@[simp] theorem Segment.read_write_same (g : Segment) (i : Nat) (v : Word) :
    (g.write i v).read i = v := by
  unfold Segment.write Segment.read
  by_cases h : v = unlistedWord
  · simp [h, assocGet_drop_same]
  · simp [h, assocGet_put_same]

theorem Segment.read_write_other (g : Segment) {i j : Nat} (v : Word) (h : j ≠ i) :
    (g.write i v).read j = g.read j := by
  unfold Segment.write Segment.read
  by_cases hv : v = unlistedWord
  · simp [hv, assocGet_drop_other _ h]
  · simp [hv, assocGet_put_other _ _ h]

theorem Segment.words_getElem (g : Segment) {i : Nat} (h : i < g.len) :
    g.words[i]? = some (g.read i) := by
  simp [Segment.words, h]

theorem cellsFrom_index_le {i : Nat} {ws : List Word} {c : Nat × Word} (h : c ∈ cellsFrom i ws) :
    i ≤ c.1 ∧ c.1 < i + ws.length ∧ c.2 ≠ unlistedWord := by
  induction ws generalizing i with
  | nil => simp [cellsFrom] at h
  | cons w ws ih =>
    unfold cellsFrom at h
    split at h
    · have := ih h; simp only [List.length_cons]; exact ⟨by omega, by omega, this.2.2⟩
    · next hw =>
      rcases List.mem_cons.mp h with h | h
      · subst h; exact ⟨Nat.le_refl _, by simp, hw⟩
      · have := ih h; simp only [List.length_cons]; exact ⟨by omega, by omega, this.2.2⟩

theorem cellsFrom_rising (i : Nat) (ws : List Word) : assocRising (cellsFrom i ws) := by
  induction ws generalizing i with
  | nil => exact List.Pairwise.nil
  | cons w ws ih =>
    unfold cellsFrom
    split
    · exact ih _
    · exact List.pairwise_cons.mpr ⟨fun c hc => Nat.lt_of_succ_le (cellsFrom_index_le hc).1, ih _⟩

theorem cellsFrom_get (i j : Nat) (ws : List Word) :
    (assocGet (i + j) (cellsFrom i ws)).getD unlistedWord = (ws[j]?).getD unlistedWord := by
  induction ws generalizing i j with
  | nil => simp [cellsFrom, assocGet]
  | cons w ws ih =>
    unfold cellsFrom
    cases j with
    | zero =>
      split
      · next hw =>
        have : assocGet i (cellsFrom (i + 1) ws) = none := by
          cases hg : assocGet i (cellsFrom (i + 1) ws) with
          | none => rfl
          | some u => have := (cellsFrom_index_le (mem_of_assocGet hg)).1; simp at this
        simp [this, hw]
      · simp [assocGet]
    | succ j =>
      have e : i + (j + 1) = (i + 1) + j := by omega
      rw [e]
      split
      · simpa using ih (i + 1) j
      · have : i + 1 + j ≠ i := by omega
        simpa [assocGet, this] using ih (i + 1) j

theorem Segment.ofWords_read (ws : List Word) (i : Nat) :
    (Segment.ofWords ws).read i = (ws[i]?).getD unlistedWord := by
  simpa [Segment.read, Segment.ofWords] using cellsFrom_get 0 i ws

theorem Segment.zeros_wf (n : Nat) : (Segment.zeros n).wf := by
  refine ⟨List.Pairwise.nil, ?_⟩
  simp [Segment.zeros]

theorem Segment.ofWords_wf (ws : List Word) : (Segment.ofWords ws).wf := by
  refine ⟨cellsFrom_rising 0 ws, fun c hc => ?_⟩
  have := cellsFrom_index_le hc
  exact ⟨by simpa using this.2.1, this.2.2⟩

theorem Segment.write_wf {g : Segment} (hg : g.wf) {i : Nat} (hi : i < g.len) (v : Word) :
    (g.write i v).wf := by
  unfold Segment.write
  by_cases hv : v = unlistedWord
  · rw [if_pos hv]; exact ⟨assocRising_drop _ hg.1, fun c hc => hg.2 c (mem_assocDrop hc)⟩
  · rw [if_neg hv]
    refine ⟨assocRising_put _ _ hg.1, fun c hc => ?_⟩
    rcases mem_assocPut hc with h | h
    · subst h; exact ⟨hi, hv⟩
    · exact hg.2 c h

/-! ### The segment map -/

theorem Memory.segment_put_same (m : Memory) (h : Word) (g : Segment) (fr : List Word) (n : Nat) :
    Memory.segment ⟨assocPut h.toNat g m.seg, fr, n⟩ h = some g := assocGet_put_same _ _ _

theorem Memory.segment_put_other (m : Memory) {h h' : Word} (g : Segment) (fr : List Word) (n : Nat)
    (hne : h' ≠ h) : Memory.segment ⟨assocPut h.toNat g m.seg, fr, n⟩ h' = m.segment h' :=
  assocGet_put_other _ _ (fun e => hne (BitVec.eq_of_toNat_eq e))

theorem Memory.segment_drop_same (m : Memory) (h : Word) (fr : List Word) (n : Nat) :
    Memory.segment ⟨assocDrop h.toNat m.seg, fr, n⟩ h = none := assocGet_drop_same _ _

theorem Memory.segment_drop_other (m : Memory) {h h' : Word} (fr : List Word) (n : Nat)
    (hne : h' ≠ h) : Memory.segment ⟨assocDrop h.toNat m.seg, fr, n⟩ h' = m.segment h' :=
  assocGet_drop_other _ (fun e => hne (BitVec.eq_of_toNat_eq e))

/-- A read depends on the segment of its handle alone. -/
theorem memRead_congr {m m' : Memory} {h : Word} (e : m'.segment h = m.segment h) (i : Word) :
    memRead m' h i = memRead m h i := by simp [memRead, e]

theorem Memory.programLen_of_segment {m : Memory} {g : Segment} (h : m.segment 0 = some g) :
    m.programLen = g.len := by
  unfold Memory.programLen; rw [h]

theorem Memory.programLen_le_total (m : Memory) : m.programLen ≤ m.total := by
  unfold Memory.programLen
  split
  · next g hg => exact le_sum_of_listed (fun s : Segment => s.len) hg
  · exact Nat.zero_le _

theorem Memory.wf_segment {m : Memory} (hm : m.wf) {h : Word} {g : Segment}
    (hg : m.segment h = some g) : g.wf := (hm.2 _ (mem_of_assocGet hg)).2

/-- Binding a handle to a canonical segment keeps memory canonical. -/
theorem Memory.wf_put {m : Memory} (hm : m.wf) (h : Word) {g : Segment} (hg : g.wf)
    (fr : List Word) (n : Nat) : Memory.wf ⟨assocPut h.toNat g m.seg, fr, n⟩ := by
  refine ⟨assocRising_put _ _ hm.1, fun b hb => ?_⟩
  rcases mem_assocPut hb with e | e
  · subst e; exact ⟨h.isLt, hg⟩
  · exact hm.2 b e

/-- Unbinding a handle keeps memory canonical. -/
theorem Memory.wf_drop {m : Memory} (hm : m.wf) (k : Nat) (fr : List Word) (n : Nat) :
    Memory.wf ⟨assocDrop k m.seg, fr, n⟩ :=
  ⟨assocRising_drop _ hm.1, fun b hb => hm.2 b (mem_assocDrop hb)⟩

/-! ### What each request can answer -/

/-- Read, when it answers a word. -/
theorem memRead_ok {m : Memory} {h i v : Word} (e : memRead m h i = .ok v) :
    ∃ g, m.segment h = some g ∧ i.toNat < g.len ∧ v = g.read i.toNat := by
  unfold memRead at e
  split at e
  · cases e
  · next g hg =>
    split at e
    · next hi => exact ⟨g, hg, hi, by cases e; rfl⟩
    · cases e

/-- Write, when it is done. -/
theorem memWrite_ok {m m' : Memory} {h i v : Word} (e : memWrite m h i v = .ok m') :
    ∃ g, m.segment h = some g ∧ i.toNat < g.len ∧
      m' = ⟨assocPut h.toNat (g.write i.toNat v) m.seg, m.free, m.next⟩ := by
  unfold memWrite at e
  split at e
  · cases e
  · next g hg =>
    split at e
    · next hi => exact ⟨g, hg, hi, by cases e; rfl⟩
    · cases e

/-- ChooseHandle, when it answers a handle: the last of FREE, or NEXT when FREE is empty. -/
theorem chooseHandle_ok {n h : Word} {m m' : Memory} (e : chooseHandle n m = .ok (h, m')) :
    (∃ l, m.free = l ++ [h] ∧ m' = ⟨m.seg, l, m.next⟩) ∨
    (m.free = [] ∧ m.next < 2 ^ 32 ∧ h.toNat = m.next ∧ m' = ⟨m.seg, [], m.next + 1⟩) := by
  unfold chooseHandle at e
  split at e
  · next h' hl =>
    cases e
    obtain ⟨l, hl⟩ := List.getLast?_eq_some_iff.mp hl
    exact .inl ⟨l, hl, by simp [hl]⟩
  · next hl =>
    split at e
    · next hn =>
      cases e
      have hf : m.free = [] := List.getLast?_eq_none_iff.mp hl
      have hlt : m.next < 2 ^ 32 := by omega
      exact .inr ⟨hf, hlt, Nat.mod_eq_of_lt hlt, by simp [hf]⟩
    · cases e

/-- The two limit checks are R41's condition. -/
theorem admitted_iff (cfg : Config) (total n : Nat) :
    (fitsSegment cfg n && fitsCapacity cfg (total + n)) = true ↔ Admitted cfg total n := by
  unfold fitsSegment fitsCapacity Admitted
  cases cfg.heapCapacityWords <;> simp

theorem fitsCapacity_iff (cfg : Config) (n : Nat) :
    fitsCapacity cfg n = true ↔ ∀ c, cfg.heapCapacityWords = some c → n ≤ c := by
  unfold fitsCapacity
  cases cfg.heapCapacityWords <;> simp

/-- Allocate, when it answers a handle. -/
theorem memAlloc_ok {cfg : Config} {n h : Word} {m m' : Memory}
    (e : memAlloc cfg n m = .ok (h, m')) :
    Admitted cfg m.total n.toNat ∧
    ((∃ l, m.free = l ++ [h] ∧
        m' = ⟨assocPut h.toNat (Segment.zeros n.toNat) m.seg, l, m.next⟩) ∨
     (m.free = [] ∧ m.next < 2 ^ 32 ∧ h.toNat = m.next ∧
        m' = ⟨assocPut h.toNat (Segment.zeros n.toNat) m.seg, [], m.next + 1⟩)) := by
  unfold memAlloc at e
  split at e
  · next hadm =>
    refine ⟨(admitted_iff _ _ _).mp hadm, ?_⟩
    split at e
    · next h1 m1 hc =>
      cases e
      rcases chooseHandle_ok hc with ⟨l, hl, rfl⟩ | ⟨hf, hn, hh, rfl⟩
      · exact .inl ⟨l, hl, rfl⟩
      · exact .inr ⟨hf, hn, hh, rfl⟩
    · cases e
  · cases e

/-- Free, when it is done. -/
theorem memFree_ok {h : Word} {m m' : Memory} (e : memFree h m = .ok m') :
    h ≠ 0 ∧ (∃ g, m.segment h = some g) ∧
      m' = ⟨assocDrop h.toNat m.seg, m.free ++ [h], m.next⟩ := by
  unfold memFree at e
  split at e
  · cases e
  · next hh =>
    cases e
    refine ⟨fun e => hh (.inl e), ?_, rfl⟩
    cases hs : m.segment h with
    | none => exact absurd (.inr hs) hh
    | some g => exact ⟨g, rfl⟩

/-- ReplaceProgram, when it is done: nothing for handle 0, else segment 0 is a copy of segment h. -/
theorem memReplace_ok {cfg : Config} {h : Word} {m m' : Memory}
    (e : memReplace cfg h m = .ok m') :
    (h = 0 ∧ m' = m) ∨
    (h ≠ 0 ∧ ∃ g, m.segment h = some g ∧
      (∀ c, cfg.heapCapacityWords = some c → m.total - m.programLen + g.len ≤ c) ∧
      m' = ⟨assocPut (0 : Word).toNat g m.seg, m.free, m.next⟩) := by
  unfold memReplace at e
  split at e
  · next hh => cases e; exact .inl ⟨hh, rfl⟩
  · next hh =>
    split at e
    · cases e
    · next g hg =>
      split at e
      · next hc => cases e; exact .inr ⟨hh, g, hg, (fitsCapacity_iff _ _).mp hc, rfl⟩
      · cases e

/-! ### Which faults each request can answer -/

/-- A kind that an instruction or a fetch can raise: neither "none" nor the boot's LoadError (R150). -/
def FaultKind.Raised (k : FaultKind) : Prop := k ≠ .noFault ∧ k ≠ .loadError

theorem memRead_error {m : Memory} {h i : Word} {f : FaultInfo} (e : memRead m h i = .error f) :
    f.kind.Raised := by
  unfold memRead at e
  split at e
  · cases e; exact ⟨nofun, nofun⟩
  · split at e <;> cases e; exact ⟨nofun, nofun⟩

theorem memWrite_error {m : Memory} {h i v : Word} {f : FaultInfo}
    (e : memWrite m h i v = .error f) : f.kind.Raised := by
  unfold memWrite at e
  split at e
  · cases e; exact ⟨nofun, nofun⟩
  · split at e <;> cases e; exact ⟨nofun, nofun⟩

theorem chooseHandle_error {n : Word} {m : Memory} {f : FaultInfo}
    (e : chooseHandle n m = .error f) : f = ⟨.allocationFailure, 0, n.setWidth 33⟩ := by
  unfold chooseHandle at e
  split at e
  · cases e
  · split at e <;> cases e; rfl

theorem memAlloc_error {cfg : Config} {n : Word} {m : Memory} {f : FaultInfo}
    (e : memAlloc cfg n m = .error f) : f = ⟨.allocationFailure, 0, n.setWidth 33⟩ := by
  unfold memAlloc at e
  split at e
  · split at e
    · cases e
    · next hc => cases e; exact chooseHandle_error hc
  · cases e; rfl

theorem memFree_error {h : Word} {m : Memory} {f : FaultInfo} (e : memFree h m = .error f) :
    f = ⟨.invalidHandle, h, 0⟩ := by
  unfold memFree at e
  split at e <;> cases e; rfl

theorem memReplace_error {cfg : Config} {h : Word} {m : Memory} {f : FaultInfo}
    (e : memReplace cfg h m = .error f) : f.kind.Raised := by
  unfold memReplace at e
  split at e
  · cases e
  · split at e
    · cases e; exact ⟨nofun, nofun⟩
    · split at e <;> cases e; exact ⟨nofun, nofun⟩

theorem fetch_error {s : State} {f : FaultInfo} (e : fetch s = .error f) :
    f = ⟨.outOfBounds, 0, s.pc⟩ := by
  unfold fetch at e
  split at e
  · cases e; rfl
  · split at e <;> cases e; rfl

theorem fetch_ok {s : State} {w : Word} (e : fetch s = .ok w) :
    ∃ g, s.mem.segment 0 = some g ∧ s.pc.toNat < g.len ∧ w = g.read s.pc.toNat := by
  unfold fetch at e
  split at e
  · cases e
  · next g hg =>
    split at e
    · next hi => exact ⟨g, hg, hi, by cases e; rfl⟩
    · cases e

theorem aluDiv_error {b c : Word} {f : FaultInfo} (e : aluDiv b c = .error f) :
    f = ⟨.divisionByZero, 0, 0⟩ := by
  unfold aluDiv at e
  split at e <;> cases e; rfl

/-! ### Every memory operation keeps the canonical form -/

theorem memWrite_wf {m m' : Memory} {h i v : Word} (hm : m.wf) (e : memWrite m h i v = .ok m') :
    m'.wf := by
  obtain ⟨g, hg, hi, rfl⟩ := memWrite_ok e
  exact Memory.wf_put hm h (Segment.write_wf (Memory.wf_segment hm hg) hi v) _ _

theorem memAlloc_wf {cfg : Config} {n h : Word} {m m' : Memory} (hm : m.wf)
    (e : memAlloc cfg n m = .ok (h, m')) : m'.wf := by
  obtain ⟨-, ⟨l, -, rfl⟩ | ⟨-, -, -, rfl⟩⟩ := memAlloc_ok e <;>
    exact Memory.wf_put hm h (Segment.zeros_wf _) _ _

theorem memFree_wf {h : Word} {m m' : Memory} (hm : m.wf) (e : memFree h m = .ok m') : m'.wf := by
  obtain ⟨-, -, rfl⟩ := memFree_ok e
  exact Memory.wf_drop hm _ _ _

theorem memReplace_wf {cfg : Config} {h : Word} {m m' : Memory} (hm : m.wf)
    (e : memReplace cfg h m = .ok m') : m'.wf := by
  obtain ⟨-, rfl⟩ | ⟨-, g, hg, -, rfl⟩ := memReplace_ok e
  · exact hm
  · exact Memory.wf_put hm 0 (Memory.wf_segment hm hg) _ _

theorem placeProgramWord_wf {m : Memory} (hm : m.wf) (i : Nat) (w : Word) :
    (m.placeProgramWord i w).wf := by
  have hg : ((m.segment 0).getD (Segment.zeros 0)).wf := by
    cases hs : m.segment 0 with
    | none => exact Segment.zeros_wf 0
    | some g => exact Memory.wf_segment hm hs
  refine Memory.wf_put hm 0 (Segment.write_wf (g := ⟨max _ (i + 1), _⟩) ⟨hg.1, fun c hc => ?_⟩ ?_ w) _ _
  · have := hg.2 c hc; exact ⟨by simp only; omega, this.2⟩
  · simp only; omega

/-- The memory a well-formed image leaves is canonical. -/
theorem loadedState_wf (cfg : Config) (ws : List Word) (input : List Byte) (ended : Bool) :
    (loadedState cfg ws input ended).mem.wf := by
  refine ⟨by simp [loadedState, assocRising], fun b hb => ?_⟩
  obtain rfl : b = (0, Segment.ofWords ws) := by simpa [loadedState] using hb
  exact ⟨by simp, Segment.ofWords_wf ws⟩

theorem loadErrorState_wf (cfg : Config) (input : List Byte) (ended : Bool) :
    (loadErrorState cfg input ended).mem.wf := by
  exact ⟨List.Pairwise.nil, fun b hb => absurd hb List.not_mem_nil⟩

end Sys2Proof.Machine
end

