-- ==== Sys2Proof/Laws/PerInstr.lean ====
section
/-! SUPPORT. The family EncodedWord: for each instruction, the word the encoder writes carries the instruction's
operation code in bits 31:28 and 0 in every bit the instruction does not use (R71, R78, R82). -/

namespace Sys2Proof.Laws.EncodedWord

/-- The statement of the family. -/
def Statement (i : Instr) : Prop :=
  i.wellFormed = true → Sys2Proof.opcode (encode i) = i.opcode ∧ encode i &&& usedBits i = encode i

/-- The selectors lie in the used bits of a three-selector word. -/
theorem stdWord_used {base : Word} (h : base &&& 0xF00001FF = base) (a b c : Reg) :
    stdWord base a b c &&& 0xF00001FF = stdWord base a b c := by
  have ha : placeReg a selALo &&& 0xF00001FF = placeReg a selALo := by cases a <;> rfl
  have hb : placeReg b selBLo &&& 0xF00001FF = placeReg b selBLo := by cases b <;> rfl
  have hc : placeReg c selCLo &&& 0xF00001FF = placeReg c selCLo := by cases c <;> rfl
  simp only [stdWord, and_or_mask, h, ha, hb, hc]

theorem cmov (a b c : Reg) : Statement (.cmov a b c) :=
  fun _ => ⟨stdWord_opcode _ a b c, stdWord_used rfl a b c⟩

theorem aread (a b c : Reg) : Statement (.aread a b c) :=
  fun _ => ⟨stdWord_opcode _ a b c, stdWord_used rfl a b c⟩

theorem awrite (a b c : Reg) : Statement (.awrite a b c) :=
  fun _ => ⟨stdWord_opcode _ a b c, stdWord_used rfl a b c⟩

theorem add (a b c : Reg) : Statement (.add a b c) :=
  fun _ => ⟨stdWord_opcode _ a b c, stdWord_used rfl a b c⟩

theorem mul (a b c : Reg) : Statement (.mul a b c) :=
  fun _ => ⟨stdWord_opcode _ a b c, stdWord_used rfl a b c⟩

theorem div (a b c : Reg) : Statement (.div a b c) :=
  fun _ => ⟨stdWord_opcode _ a b c, stdWord_used rfl a b c⟩

theorem nand (a b c : Reg) : Statement (.nand a b c) :=
  fun _ => ⟨stdWord_opcode _ a b c, stdWord_used rfl a b c⟩

theorem halt : Statement .halt := fun _ => ⟨rfl, rfl⟩

theorem alloc (b c : Reg) : Statement (.alloc b c) := by
  intro _; cases b <;> cases c <;> exact ⟨rfl, rfl⟩

theorem free (c : Reg) : Statement (.free c) := by
  intro _; cases c <;> exact ⟨rfl, rfl⟩

theorem out (c : Reg) : Statement (.out c) := by
  intro _; cases c <;> exact ⟨rfl, rfl⟩

theorem inp (c : Reg) : Statement (.inp c) := by
  intro _; cases c <;> exact ⟨rfl, rfl⟩

theorem loadprog (b c : Reg) : Statement (.loadprog b c) := by
  intro _; cases b <;> cases c <;> exact ⟨rfl, rfl⟩

theorem li (a : Reg) (value : Word) : Statement (.li a value) := by
  intro hw
  have hv : immInRange value := of_decide_eq_true hw
  have h0 : value.extractLsb' opLo 4 = 0 := by
    ext k hk
    simp [opLo, imm_high_bits hv (show 25 ≤ 28 + k by omega)]
  refine ⟨?_, BitVec.and_allOnes⟩
  simp only [Sys2Proof.opcode, encode, extract_or, placeReg_A13, h0]
  rfl

theorem reserved14 : Statement .reserved14 := fun _ => ⟨rfl, rfl⟩

theorem reserved15 : Statement .reserved15 := fun _ => ⟨rfl, rfl⟩

end Sys2Proof.Laws.EncodedWord
end

