-- ==== Sys2Proof/Laws/State.lean ====
section
/-! SUPPORT. Each field of each state update, and the register file's read-after-write laws. -/

namespace Sys2Proof.Machine

theorem RegFile.get_set_same (f : RegFile) (r : Reg) (v : Word) : (f.set r v).get r = v := by
  cases r <;> rfl

theorem RegFile.get_set_other (f : RegFile) {r r' : Reg} (v : Word) (h : r' ≠ r) :
    (f.set r v).get r' = f.get r' := by
  cases r <;> cases r' <;> first | rfl | exact absurd rfl h

theorem RegFile.get_set (f : RegFile) (r r' : Reg) (v : Word) :
    (f.set r v).get r' = if r' = r then v else f.get r' := by
  split
  · subst r'; exact f.get_set_same r v
  · exact f.get_set_other v ‹_›

@[simp] theorem State.setReg_regs (s : State) (r : Reg) (v : Word) : (s.setReg r v).regs = s.regs.set r v := rfl
@[simp] theorem State.setReg_unwritten (s : State) (r : Reg) (v : Word) : (s.setReg r v).unwritten = s.unwritten.filter (fun r' => r' != r) := rfl
@[simp] theorem State.setReg_pc (s : State) (r : Reg) (v : Word) : (s.setReg r v).pc = s.pc := rfl
@[simp] theorem State.setReg_status (s : State) (r : Reg) (v : Word) : (s.setReg r v).status = s.status := rfl
@[simp] theorem State.setReg_fault (s : State) (r : Reg) (v : Word) : (s.setReg r v).fault = s.fault := rfl
@[simp] theorem State.setReg_mem (s : State) (r : Reg) (v : Word) : (s.setReg r v).mem = s.mem := rfl
@[simp] theorem State.setReg_input (s : State) (r : Reg) (v : Word) : (s.setReg r v).input = s.input := rfl
@[simp] theorem State.setReg_inputEnded (s : State) (r : Reg) (v : Word) : (s.setReg r v).inputEnded = s.inputEnded := rfl
@[simp] theorem State.setReg_output (s : State) (r : Reg) (v : Word) : (s.setReg r v).output = s.output := rfl
@[simp] theorem State.setReg_config (s : State) (r : Reg) (v : Word) : (s.setReg r v).config = s.config := rfl

@[simp] theorem State.advance_regs (s : State) : s.advance.regs = s.regs := rfl
@[simp] theorem State.advance_unwritten (s : State) : s.advance.unwritten = s.unwritten := rfl
@[simp] theorem State.advance_pc (s : State) : s.advance.pc = s.pc + 1 := rfl
@[simp] theorem State.advance_status (s : State) : s.advance.status = s.status := rfl
@[simp] theorem State.advance_fault (s : State) : s.advance.fault = s.fault := rfl
@[simp] theorem State.advance_mem (s : State) : s.advance.mem = s.mem := rfl
@[simp] theorem State.advance_input (s : State) : s.advance.input = s.input := rfl
@[simp] theorem State.advance_inputEnded (s : State) : s.advance.inputEnded = s.inputEnded := rfl
@[simp] theorem State.advance_output (s : State) : s.advance.output = s.output := rfl
@[simp] theorem State.advance_config (s : State) : s.advance.config = s.config := rfl

@[simp] theorem State.jump_regs (s : State) (t : Word) : (s.jump t).regs = s.regs := rfl
@[simp] theorem State.jump_unwritten (s : State) (t : Word) : (s.jump t).unwritten = s.unwritten := rfl
@[simp] theorem State.jump_pc (s : State) (t : Word) : (s.jump t).pc = t.setWidth 33 := rfl
@[simp] theorem State.jump_status (s : State) (t : Word) : (s.jump t).status = s.status := rfl
@[simp] theorem State.jump_fault (s : State) (t : Word) : (s.jump t).fault = s.fault := rfl
@[simp] theorem State.jump_mem (s : State) (t : Word) : (s.jump t).mem = s.mem := rfl
@[simp] theorem State.jump_input (s : State) (t : Word) : (s.jump t).input = s.input := rfl
@[simp] theorem State.jump_inputEnded (s : State) (t : Word) : (s.jump t).inputEnded = s.inputEnded := rfl
@[simp] theorem State.jump_output (s : State) (t : Word) : (s.jump t).output = s.output := rfl
@[simp] theorem State.jump_config (s : State) (t : Word) : (s.jump t).config = s.config := rfl

@[simp] theorem State.setMem_regs (s : State) (m : Memory) : (s.setMem m).regs = s.regs := rfl
@[simp] theorem State.setMem_unwritten (s : State) (m : Memory) : (s.setMem m).unwritten = s.unwritten := rfl
@[simp] theorem State.setMem_pc (s : State) (m : Memory) : (s.setMem m).pc = s.pc := rfl
@[simp] theorem State.setMem_status (s : State) (m : Memory) : (s.setMem m).status = s.status := rfl
@[simp] theorem State.setMem_fault (s : State) (m : Memory) : (s.setMem m).fault = s.fault := rfl
@[simp] theorem State.setMem_mem (s : State) (m : Memory) : (s.setMem m).mem = m := rfl
@[simp] theorem State.setMem_input (s : State) (m : Memory) : (s.setMem m).input = s.input := rfl
@[simp] theorem State.setMem_inputEnded (s : State) (m : Memory) : (s.setMem m).inputEnded = s.inputEnded := rfl
@[simp] theorem State.setMem_output (s : State) (m : Memory) : (s.setMem m).output = s.output := rfl
@[simp] theorem State.setMem_config (s : State) (m : Memory) : (s.setMem m).config = s.config := rfl

@[simp] theorem State.stop_regs (s : State) : s.stop.regs = s.regs := rfl
@[simp] theorem State.stop_unwritten (s : State) : s.stop.unwritten = s.unwritten := rfl
@[simp] theorem State.stop_pc (s : State) : s.stop.pc = s.pc := rfl
@[simp] theorem State.stop_status (s : State) : s.stop.status = .halted := rfl
@[simp] theorem State.stop_fault (s : State) : s.stop.fault = s.fault := rfl
@[simp] theorem State.stop_mem (s : State) : s.stop.mem = s.mem := rfl
@[simp] theorem State.stop_input (s : State) : s.stop.input = s.input := rfl
@[simp] theorem State.stop_inputEnded (s : State) : s.stop.inputEnded = s.inputEnded := rfl
@[simp] theorem State.stop_output (s : State) : s.stop.output = s.output := rfl
@[simp] theorem State.stop_config (s : State) : s.stop.config = s.config := rfl

@[simp] theorem State.emit_regs (s : State) (b : Byte) : (s.emit b).regs = s.regs := rfl
@[simp] theorem State.emit_unwritten (s : State) (b : Byte) : (s.emit b).unwritten = s.unwritten := rfl
@[simp] theorem State.emit_pc (s : State) (b : Byte) : (s.emit b).pc = s.pc := rfl
@[simp] theorem State.emit_status (s : State) (b : Byte) : (s.emit b).status = s.status := rfl
@[simp] theorem State.emit_fault (s : State) (b : Byte) : (s.emit b).fault = s.fault := rfl
@[simp] theorem State.emit_mem (s : State) (b : Byte) : (s.emit b).mem = s.mem := rfl
@[simp] theorem State.emit_input (s : State) (b : Byte) : (s.emit b).input = s.input := rfl
@[simp] theorem State.emit_inputEnded (s : State) (b : Byte) : (s.emit b).inputEnded = s.inputEnded := rfl
@[simp] theorem State.emit_output (s : State) (b : Byte) : (s.emit b).output = s.output ++ [b] := rfl
@[simp] theorem State.emit_config (s : State) (b : Byte) : (s.emit b).config = s.config := rfl

@[simp] theorem State.consumeInput_regs (s : State) : s.consumeInput.regs = s.regs := rfl
@[simp] theorem State.consumeInput_unwritten (s : State) : s.consumeInput.unwritten = s.unwritten := rfl
@[simp] theorem State.consumeInput_pc (s : State) : s.consumeInput.pc = s.pc := rfl
@[simp] theorem State.consumeInput_status (s : State) : s.consumeInput.status = s.status := rfl
@[simp] theorem State.consumeInput_fault (s : State) : s.consumeInput.fault = s.fault := rfl
@[simp] theorem State.consumeInput_mem (s : State) : s.consumeInput.mem = s.mem := rfl
@[simp] theorem State.consumeInput_input (s : State) : s.consumeInput.input = s.input.tail := rfl
@[simp] theorem State.consumeInput_inputEnded (s : State) : s.consumeInput.inputEnded = s.inputEnded := rfl
@[simp] theorem State.consumeInput_output (s : State) : s.consumeInput.output = s.output := rfl
@[simp] theorem State.consumeInput_config (s : State) : s.consumeInput.config = s.config := rfl

@[simp] theorem State.hostEnd_regs (s : State) : s.hostEnd.regs = s.regs := rfl
@[simp] theorem State.hostEnd_unwritten (s : State) : s.hostEnd.unwritten = s.unwritten := rfl
@[simp] theorem State.hostEnd_pc (s : State) : s.hostEnd.pc = s.pc := rfl
@[simp] theorem State.hostEnd_status (s : State) : s.hostEnd.status = s.status := rfl
@[simp] theorem State.hostEnd_fault (s : State) : s.hostEnd.fault = s.fault := rfl
@[simp] theorem State.hostEnd_mem (s : State) : s.hostEnd.mem = s.mem := rfl
@[simp] theorem State.hostEnd_input (s : State) : s.hostEnd.input = s.input := rfl
@[simp] theorem State.hostEnd_inputEnded (s : State) : s.hostEnd.inputEnded = true := rfl
@[simp] theorem State.hostEnd_output (s : State) : s.hostEnd.output = s.output := rfl
@[simp] theorem State.hostEnd_config (s : State) : s.hostEnd.config = s.config := rfl

@[simp] theorem State.raise_regs (s : State) (f : FaultInfo) : (s.raise f).regs = s.regs := rfl
@[simp] theorem State.raise_unwritten (s : State) (f : FaultInfo) : (s.raise f).unwritten = s.unwritten := rfl
@[simp] theorem State.raise_pc (s : State) (f : FaultInfo) : (s.raise f).pc = s.pc := rfl
@[simp] theorem State.raise_status (s : State) (f : FaultInfo) : (s.raise f).status = .faulted := rfl
@[simp] theorem State.raise_fault (s : State) (f : FaultInfo) : (s.raise f).fault = ⟨f.kind, s.pc, currentWord s, f.handle, f.index⟩ := rfl
@[simp] theorem State.raise_mem (s : State) (f : FaultInfo) : (s.raise f).mem = s.mem := rfl
@[simp] theorem State.raise_input (s : State) (f : FaultInfo) : (s.raise f).input = s.input := rfl
@[simp] theorem State.raise_inputEnded (s : State) (f : FaultInfo) : (s.raise f).inputEnded = s.inputEnded := rfl
@[simp] theorem State.raise_output (s : State) (f : FaultInfo) : (s.raise f).output = s.output := rfl
@[simp] theorem State.raise_config (s : State) (f : FaultInfo) : (s.raise f).config = s.config := rfl

/-! ### Registers through each update -/

theorem State.reg_def (s : State) (r : Reg) : s.reg r = s.regs.get r := rfl

theorem State.reg_setReg (s : State) (d r : Reg) (v : Word) :
    (s.setReg d v).reg r = if r = d then v else s.reg r := s.regs.get_set d r v

@[simp] theorem State.reg_setReg_same (s : State) (d : Reg) (v : Word) : (s.setReg d v).reg d = v :=
  s.regs.get_set_same d v

theorem State.reg_setReg_other (s : State) {d r : Reg} (v : Word) (h : r ≠ d) :
    (s.setReg d v).reg r = s.reg r := s.regs.get_set_other v h

@[simp] theorem State.reg_advance (s : State) (r : Reg) : s.advance.reg r = s.reg r := rfl
@[simp] theorem State.reg_jump (s : State) (t : Word) (r : Reg) : (s.jump t).reg r = s.reg r := rfl
@[simp] theorem State.reg_setMem (s : State) (m : Memory) (r : Reg) : (s.setMem m).reg r = s.reg r := rfl
@[simp] theorem State.reg_stop (s : State) (r : Reg) : s.stop.reg r = s.reg r := rfl
@[simp] theorem State.reg_emit (s : State) (b : Byte) (r : Reg) : (s.emit b).reg r = s.reg r := rfl
@[simp] theorem State.reg_consumeInput (s : State) (r : Reg) : s.consumeInput.reg r = s.reg r := rfl
@[simp] theorem State.reg_hostEnd (s : State) (r : Reg) : s.hostEnd.reg r = s.reg r := rfl
@[simp] theorem State.reg_raise (s : State) (f : FaultInfo) (r : Reg) : (s.raise f).reg r = s.reg r := rfl

/-! ### Which registers hold a value -/

/-- Writing d takes d, and nothing else, out of the registers that hold no value. -/
theorem State.mem_unwritten_setReg (s : State) (d r : Reg) (v : Word) :
    r ∈ (s.setReg d v).unwritten ↔ r ∈ s.unwritten ∧ r ≠ d := by simp

/-- Where every register holds a value, as under REG_RESET = ZERO, every operand can be read. -/
theorem canRead_of_noneUnwritten {s : State} (h : s.unwritten = []) (rs : List Reg) : s.CanRead rs := by
  intro r _; rw [h]; exact List.not_mem_nil

theorem reading_of_canRead {rs : List Reg} {s : State} {k : Host.Outcome State Fault Refusal}
    (h : s.CanRead rs) : reading rs s k = k := if_pos h

/-- Reading a register that holds no value is V3's fault. -/
theorem reading_of_not_canRead {rs : List Reg} {s : State} {k : Host.Outcome State Fault Refusal}
    (h : ¬ s.CanRead rs) : reading rs s k = .next (s.raise ⟨.unwrittenRegister, 0, 0⟩) := if_neg h

/-- All that `reading` can do: go on, or raise V3's fault at a register that holds no value. -/
theorem reading_cases (rs : List Reg) (s : State) (k : Host.Outcome State Fault Refusal) :
    (s.CanRead rs ∧ reading rs s k = k) ∨
    (¬ s.CanRead rs ∧ reading rs s k = .next (s.raise ⟨.unwrittenRegister, 0, 0⟩)) := by
  by_cases h : s.CanRead rs
  · exact .inl ⟨h, reading_of_canRead h⟩
  · exact .inr ⟨h, reading_of_not_canRead h⟩

theorem reading_next {rs : List Reg} {s t : State} {k : Host.Outcome State Fault Refusal}
    (e : reading rs s k = .next t) :
    (s.CanRead rs ∧ k = .next t) ∨ (¬ s.CanRead rs ∧ t = s.raise ⟨.unwrittenRegister, 0, 0⟩) := by
  rcases reading_cases rs s k with ⟨hr, h⟩ | ⟨hr, h⟩
  · exact .inl ⟨hr, h ▸ e⟩
  · rw [h] at e; cases e; exact .inr ⟨hr, rfl⟩

/-- `reading` itself never stops. -/
theorem reading_fault {rs : List Reg} {s : State} {k : Host.Outcome State Fault Refusal} {e : Fault}
    (h : reading rs s k = .fault e) : k = .fault e := by
  rcases reading_cases rs s k with ⟨_, h'⟩ | ⟨_, h'⟩ <;> rw [h'] at h
  · exact h
  · cases h

end Sys2Proof.Machine
end

