-- ==== Sys2Proof/Laws/Step.lean ====
section
/-! SUPPORT. What an instruction and a step can do, said once: either a fault is raised, or the instruction's
own effect happens. -/

namespace Sys2Proof.Machine

/-- t is s after the whole effect of i, with no fault: one line for each instruction (R100 to R141). -/
def Completed (i : Instr) (s t : State) : Prop :=
  match i with
  | .cmov a b c => (s.reg c ≠ 0 ∧ t = (s.setReg a (s.reg b)).advance) ∨ (s.reg c = 0 ∧ t = s.advance)
  | .aread a b c => ∃ v, memRead s.mem (s.reg b) (s.reg c) = .ok v ∧ t = (s.setReg a v).advance
  | .awrite a b c => ∃ m, memWrite s.mem (s.reg a) (s.reg b) (s.reg c) = .ok m ∧ t = (s.setMem m).advance
  | .add a b c => t = (s.setReg a (aluAdd (s.reg b) (s.reg c))).advance
  | .mul a b c => t = (s.setReg a (aluMul (s.reg b) (s.reg c))).advance
  | .div a b c => ∃ v, aluDiv (s.reg b) (s.reg c) = .ok v ∧ t = (s.setReg a v).advance
  | .nand a b c => t = (s.setReg a (aluNand (s.reg b) (s.reg c))).advance
  | .halt => t = s.stop.advance
  | .alloc b c => ∃ h m, memAlloc s.config (s.reg c) s.mem = .ok (h, m) ∧
      t = ((s.setMem m).setReg b h).advance
  | .free c => ∃ m, memFree (s.reg c) s.mem = .ok m ∧ t = (s.setMem m).advance
  | .out c => (isByteValue (s.reg c) = true ∨ s.config.outputPolicy = .truncate) ∧
      t = (s.emit ((s.reg c).setWidth 8)).advance
  | .inp c => (∃ v rest, s.input = v :: rest ∧ t = (s.consumeInput.setReg c (v.setWidth 32)).advance) ∨
      (s.input = [] ∧ s.inputEnded = true ∧ t = (s.setReg c eofSentinel).advance)
  | .loadprog b c => ∃ m, memReplace s.config (s.reg b) s.mem = .ok m ∧ t = (s.setMem m).jump (s.reg c)
  | .li a value => t = (s.setReg a value).advance
  | .reserved14 => False
  | .reserved15 => False

theorem orTrap_next {α : Type} {s t : State} {r : Except FaultInfo α} {k : α → State}
    (e : orTrap s r k = .next t) :
    (∃ v, r = .ok v ∧ t = k v) ∨ (∃ f, r = .error f ∧ t = s.raise f) := by
  cases r with
  | ok v => cases e; exact .inl ⟨v, rfl, rfl⟩
  | error f => cases e; exact .inr ⟨f, rfl, rfl⟩

theorem orTrap_ne_fault {α : Type} {s : State} {r : Except FaultInfo α} {k : α → State} {e : Fault} :
    orTrap s r k ≠ .fault e := by
  cases r <;> nofun

/-- InByte's answer names the state of the channel (R130). -/
theorem inByte_cases (s : State) :
    (∃ v rest, s.input = v :: rest ∧ inByte s = .byte v) ∨
    (s.input = [] ∧ s.inputEnded = true ∧ inByte s = .ended) ∨
    (s.input = [] ∧ s.inputEnded = false ∧ inByte s = .pending) := by
  unfold inByte
  cases s.input with
  | cons v rest => exact .inl ⟨v, rest, rfl, rfl⟩
  | nil => cases s.inputEnded <;> simp

/-- Every instruction either raises a fault of a kind R150 or V3 gives it, or reads registers that hold a value and
completes. -/
theorem exec_next {i : Instr} {s t : State} (e : exec i s = .next t) :
    (∃ f : FaultInfo, f.kind.Raised ∧ t = s.raise f) ∨ Completed i s t := by
  have guarded : ∀ {rs : List Reg} {k : Host.Outcome State Fault Refusal}, reading rs s k = .next t →
      (k = .next t → (∃ f : FaultInfo, f.kind.Raised ∧ t = s.raise f) ∨ Completed i s t) →
      (∃ f : FaultInfo, f.kind.Raised ∧ t = s.raise f) ∨ Completed i s t := by
    intro rs k h hk
    rcases reading_next h with ⟨_, h⟩ | ⟨_, h⟩
    · exact hk h
    · exact .inl ⟨⟨.unwrittenRegister, 0, 0⟩, ⟨nofun, nofun⟩, h⟩
  have viaTrap : ∀ {α : Type} {rs : List Reg} {r : Except FaultInfo α} {k : α → State},
      (∀ f, r = .error f → f.kind.Raised) → ((∃ v, r = .ok v ∧ t = k v) → Completed i s t) →
      reading rs s (orTrap s r k) = .next t →
      (∃ f : FaultInfo, f.kind.Raised ∧ t = s.raise f) ∨ Completed i s t := by
    intro α rs r k hr hc h
    refine guarded h fun h => ?_
    rcases orTrap_next h with h | ⟨f, hf, ht⟩
    · exact .inr (hc h)
    · exact .inl ⟨f, hr f hf, ht⟩
  cases i with
  | cmov a b c =>
    refine guarded e fun e => ?_
    cases e
    by_cases h : s.reg c = 0
    · exact .inr (.inr ⟨h, by simp [nonZero, h]⟩)
    · exact .inr (.inl ⟨h, if_pos (by simpa [nonZero] using h)⟩)
  | aread a b c => exact viaTrap (fun _ => memRead_error) id e
  | awrite a b c => exact viaTrap (fun _ => memWrite_error) id e
  | add a b c => exact guarded e fun e => by cases e; exact .inr rfl
  | mul a b c => exact guarded e fun e => by cases e; exact .inr rfl
  | div a b c => exact viaTrap (fun f h => by rw [aluDiv_error h]; exact ⟨nofun, nofun⟩) id e
  | nand a b c => exact guarded e fun e => by cases e; exact .inr rfl
  | halt => cases e; exact .inr rfl
  | alloc b c =>
    exact viaTrap (fun f h => by rw [memAlloc_error h]; exact ⟨nofun, nofun⟩)
      (fun ⟨r, hr, ht⟩ => ⟨r.1, r.2, hr, ht⟩) e
  | free c => exact viaTrap (fun f h => by rw [memFree_error h]; exact ⟨nofun, nofun⟩) id e
  | out c =>
    refine guarded e fun e => ?_
    split at e
    · next h =>
      cases e
      exact .inr ⟨by simpa using h, rfl⟩
    · cases e; exact .inl ⟨⟨.outputOutOfRange, 0, 0⟩, ⟨nofun, nofun⟩, rfl⟩
  | inp c =>
    change execInp c s = _ at e; unfold execInp at e
    rcases inByte_cases s with ⟨v, rest, hi, h⟩ | ⟨hi, he, h⟩ | ⟨hi, he, h⟩
    · rw [h] at e; cases e; exact .inr (.inl ⟨v, rest, hi, rfl⟩)
    · rw [h] at e; cases e; exact .inr (.inr ⟨hi, he, rfl⟩)
    · rw [h] at e; cases e
  | loadprog b c => exact viaTrap (fun _ => memReplace_error) id e
  | li a value => cases e; exact .inr rfl
  | reserved14 => cases e; exact .inl ⟨⟨.unknownOperation, 0, 0⟩, ⟨nofun, nofun⟩, rfl⟩
  | reserved15 => cases e; exact .inl ⟨⟨.unknownOperation, 0, 0⟩, ⟨nofun, nofun⟩, rfl⟩

/-- Nothing is refused. -/
theorem exec_not_refused (i : Instr) (s : State) (r : Refusal) : exec i s ≠ .refused r := by
  have guarded : ∀ {rs : List Reg} {k : Host.Outcome State Fault Refusal}, k ≠ .refused r →
      reading rs s k ≠ .refused r := by
    intro rs k hk
    rcases reading_cases rs s k with ⟨_, h⟩ | ⟨_, h⟩ <;> rw [h]
    · exact hk
    · nofun
  have viaTrap : ∀ {α : Type} {q : Except FaultInfo α} {k : α → State}, orTrap s q k ≠ .refused r := by
    intro α q k; cases q <;> nofun
  cases i with
  | aread a b c => exact guarded viaTrap
  | awrite a b c => exact guarded viaTrap
  | div a b c => exact guarded viaTrap
  | alloc b c => exact guarded viaTrap
  | free c => exact guarded viaTrap
  | loadprog b c => exact guarded viaTrap
  | out c => refine guarded ?_; split <;> nofun
  | inp c => change execInp c s ≠ _; unfold execInp; split <;> nofun
  | cmov a b c => exact guarded nofun
  | add a b c => exact guarded nofun
  | mul a b c => exact guarded nofun
  | nand a b c => exact guarded nofun
  | halt => nofun
  | li a value => nofun
  | reserved14 => nofun
  | reserved15 => nofun

/-- An instruction stops without a next state only when it is an input with no answer yet (R95). -/
theorem exec_fault {i : Instr} {s : State} {e : Fault} (h : exec i s = .fault e) :
    e = .inputWait ∧ s.input = [] ∧ s.inputEnded = false ∧ ∃ c, i = .inp c := by
  have viaTrap : ∀ {α : Type} {rs : List Reg} {r : Except FaultInfo α} {k : α → State},
      reading rs s (orTrap s r k) ≠ .fault e := fun h => orTrap_ne_fault (reading_fault h)
  cases i with
  | inp c =>
    change execInp c s = _ at h; unfold execInp at h
    rcases inByte_cases s with ⟨v, rest, hi, hb⟩ | ⟨hi, he, hb⟩ | ⟨hi, he, hb⟩
    · rw [hb] at h; cases h
    · rw [hb] at h; cases h
    · rw [hb] at h; cases h; exact ⟨rfl, hi, he, c, rfl⟩
  | out c => replace h := reading_fault h; split at h <;> cases h
  | aread a b c => exact absurd h viaTrap
  | awrite a b c => exact absurd h viaTrap
  | div a b c => exact absurd h viaTrap
  | alloc b c => exact absurd h viaTrap
  | free c => exact absurd h viaTrap
  | loadprog b c => exact absurd h viaTrap
  | cmov a b c => cases reading_fault h
  | add a b c => cases reading_fault h
  | mul a b c => cases reading_fault h
  | nand a b c => cases reading_fault h
  | halt => cases h
  | li a value => cases h
  | reserved14 => cases h
  | reserved15 => cases h

/-- Reading a register that holds no value is V3's fault, whatever the instruction (R23). -/
theorem exec_unwritten {i : Instr} {s : State} (h : ¬ s.CanRead i.readRegs) :
    exec i s = .next (s.raise ⟨.unwrittenRegister, 0, 0⟩) := by
  cases i with
  | inp c => exact absurd nofun h
  | halt => exact absurd nofun h
  | li a value => exact absurd nofun h
  | reserved14 => exact absurd nofun h
  | reserved15 => exact absurd nofun h
  | out c => exact if_neg h
  | aread a b c => exact if_neg h
  | awrite a b c => exact if_neg h
  | div a b c => exact if_neg h
  | alloc b c => exact if_neg h
  | free c => exact if_neg h
  | loadprog b c => exact if_neg h
  | cmov a b c => exact if_neg h
  | add a b c => exact if_neg h
  | mul a b c => exact if_neg h
  | nand a b c => exact if_neg h

/-- A step that answers a next state is a fetch fault or the fetched instruction's own (R92). -/
theorem step_next {s t : State} (e : step s = .next t) :
    s.status = .running ∧
    ((fetch s = .error ⟨.outOfBounds, 0, s.pc⟩ ∧ t = s.raise ⟨.outOfBounds, 0, s.pc⟩) ∨
     (∃ w, fetch s = .ok w ∧ exec (decode w) s = .next t)) := by
  unfold step at e
  split at e
  · next hs =>
    refine ⟨hs, ?_⟩
    split at e
    · next w hw => exact .inr ⟨w, hw, e⟩
    · next f hf => obtain rfl := fetch_error hf; cases e; exact .inl ⟨hf, rfl⟩
  · cases e
  · cases e

theorem currentWord_of_fetch {s : State} {w : Word} (h : fetch s = .ok w) : currentWord s = w := by
  unfold currentWord; rw [h]

/-- Raising a fault is R152's list of writes and nothing else. -/
theorem tookFault_raise (s : State) (f : FaultInfo) :
    TookFault f.kind f.handle f.index (currentWord s) s (s.raise f) where
  status := rfl
  record := rfl
  pc := rfl
  regs := fun _ => ⟨rfl, Iff.rfl⟩
  memory := ⟨fun _ _ => rfl, rfl⟩
  io := ⟨⟨rfl, rfl⟩, rfl⟩
  config := rfl

/-- The same for the instruction word at hand: the form an instruction's fault clause asks for. -/
theorem tookFault_of_fetch {s : State} {w : Word} (hw : fetch s = .ok w) (k : FaultKind) (h : Word)
    (i : Pc) : TookFault k h i w s (s.raise ⟨k, h, i⟩) :=
  currentWord_of_fetch hw ▸ tookFault_raise s ⟨k, h, i⟩

/-- The reset state is the boot of an empty image. -/
theorem boot_empty : boot Config.standard [] [] true = State.reset := rfl

/-- The boot ends in one of R171's and R172's two states. -/
theorem boot_cases (cfg : Config) (image input : List Byte) (ended : Bool) :
    (∃ ws, imageWords image = some ws ∧ ws.length ≤ cfg.maxSegmentWords ∧
      (∀ c, cfg.heapCapacityWords = some c → ws.length ≤ c) ∧
      boot cfg image input ended = loadedState cfg ws input ended) ∨
    boot cfg image input ended = loadErrorState cfg input ended := by
  unfold boot
  cases imageWords image with
  | none => exact .inr rfl
  | some ws =>
    by_cases h : (fitsSegment cfg ws.length && fitsCapacity cfg ws.length) = true
    · left
      have h' := Bool.and_eq_true_iff.mp h
      exact ⟨ws, rfl, of_decide_eq_true h'.1, (fitsCapacity_iff _ _).mp h'.2, if_pos h⟩
    · exact .inr (if_neg h)

/-! ### What completing an instruction changes -/

/-- STATUS changes only by halt (R90). -/
theorem completed_status {i : Instr} {s t : State} (h : Completed i s t) :
    (i = .halt ∧ t.status = .halted) ∨ (i ≠ .halt ∧ t.status = s.status) := by
  cases i <;> simp only [Completed] at h
  case cmov => rcases h with ⟨_, rfl⟩ | ⟨_, rfl⟩ <;> simp
  case out => obtain ⟨_, rfl⟩ := h; simp
  case inp => rcases h with ⟨_, _, _, rfl⟩ | ⟨_, _, rfl⟩ <;> simp
  case alloc => obtain ⟨_, _, _, rfl⟩ := h; simp
  all_goals first | (subst h; simp) | (obtain ⟨_, _, rfl⟩ := h; simp)

/-- pc goes to the jump target for load program and to the next word otherwise (R25). -/
theorem completed_pc {i : Instr} {s t : State} (h : Completed i s t) :
    (∃ b c, i = .loadprog b c ∧ t.pc = (s.reg c).setWidth 33) ∨
    ((∀ b c, i ≠ .loadprog b c) ∧ t.pc = s.pc + 1) := by
  cases i <;> simp only [Completed] at h
  case cmov => rcases h with ⟨_, rfl⟩ | ⟨_, rfl⟩ <;> simp
  case out => obtain ⟨_, rfl⟩ := h; simp
  case inp => rcases h with ⟨_, _, _, rfl⟩ | ⟨_, _, rfl⟩ <;> simp
  case alloc => obtain ⟨_, _, _, rfl⟩ := h; simp
  all_goals first | (subst h; simp) | (obtain ⟨_, _, rfl⟩ := h; simp)

/-- The fault record and the parameters stay. -/
theorem completed_control {i : Instr} {s t : State} (h : Completed i s t) :
    t.fault = s.fault ∧ t.config = s.config := by
  cases i <;> simp only [Completed] at h
  case cmov => rcases h with ⟨_, rfl⟩ | ⟨_, rfl⟩ <;> simp
  case out => obtain ⟨_, rfl⟩ := h; simp
  case inp => rcases h with ⟨_, _, _, rfl⟩ | ⟨_, _, rfl⟩ <;> simp
  case alloc => obtain ⟨_, _, _, rfl⟩ := h; simp
  all_goals first | (subst h; simp) | (obtain ⟨_, _, rfl⟩ := h; simp)

/-- A register write changes no other register. -/
theorem sameReg_setReg (s : State) {d r : Reg} (v : Word) (h : r ≠ d) : SameReg r s (s.setReg d v) :=
  ⟨s.reg_setReg_other v h, by simp [h]⟩

/-- The register written holds the value. -/
theorem holds_setReg (s : State) (d : Reg) (v : Word) : (s.setReg d v).Holds d v :=
  ⟨s.reg_setReg_same d v, by simp⟩

/-- No register but the table's is written (R22). -/
theorem completed_regs {i : Instr} {s t : State} (h : Completed i s t) {r : Reg}
    (hr : i.writtenReg ≠ some r) : SameReg r s t := by
  have other : ∀ {d : Reg}, some d ≠ some r → r ≠ d := fun hd e => hd (e ▸ rfl)
  cases i <;> simp only [Completed] at h <;> simp only [Instr.writtenReg] at hr
  case cmov =>
    rcases h with ⟨_, rfl⟩ | ⟨_, rfl⟩
    · exact sameReg_setReg s _ (other hr)
    · exact ⟨rfl, Iff.rfl⟩
  case inp => rcases h with ⟨_, _, _, rfl⟩ | ⟨_, _, rfl⟩ <;> exact sameReg_setReg _ _ (other hr)
  case alloc => obtain ⟨_, _, _, rfl⟩ := h; exact sameReg_setReg (s.setMem _) _ (other hr)
  case aread => obtain ⟨_, _, rfl⟩ := h; exact sameReg_setReg s _ (other hr)
  case div => obtain ⟨_, _, rfl⟩ := h; exact sameReg_setReg s _ (other hr)
  case out => obtain ⟨_, rfl⟩ := h; exact ⟨rfl, Iff.rfl⟩
  case awrite => obtain ⟨_, _, rfl⟩ := h; exact ⟨rfl, Iff.rfl⟩
  case free => obtain ⟨_, _, rfl⟩ := h; exact ⟨rfl, Iff.rfl⟩
  case loadprog => obtain ⟨_, _, rfl⟩ := h; exact ⟨rfl, Iff.rfl⟩
  case halt => subst h; exact ⟨rfl, Iff.rfl⟩
  all_goals subst h; exact sameReg_setReg s _ (other hr)

/-- Memory changes by the response to the instruction's own request, or not at all (R50, R93). -/
theorem completed_mem {i : Instr} {s t : State} (h : Completed i s t) :
    MemoryChangesByOwnRequest i s t := by
  cases i <;> simp only [Completed] at h
  case awrite => obtain ⟨m, hm, rfl⟩ := h; exact hm
  case alloc => obtain ⟨k, m, hm, rfl⟩ := h; simpa [MemoryChangesByOwnRequest] using hm
  case free => obtain ⟨m, hm, rfl⟩ := h; exact hm
  case loadprog => obtain ⟨m, hm, rfl⟩ := h; exact hm
  case cmov => rcases h with ⟨_, rfl⟩ | ⟨_, rfl⟩ <;> rfl
  case inp => rcases h with ⟨_, _, _, rfl⟩ | ⟨_, _, rfl⟩ <;> rfl
  case out => obtain ⟨_, rfl⟩ := h; rfl
  all_goals first | (subst h; rfl) | (obtain ⟨_, _, rfl⟩ := h; rfl)

/-- What `MemoryChangesByOwnRequest` allows, by the kind of request. -/
theorem memoryChanges_cases {i : Instr} {s t : State} (h : MemoryChangesByOwnRequest i s t) :
    t.mem = s.mem ∨ (∃ h j v, memWrite s.mem h j v = .ok t.mem) ∨
    (∃ n h, memAlloc s.config n s.mem = .ok (h, t.mem)) ∨ (∃ h, memFree h s.mem = .ok t.mem) ∨
    (∃ h, memReplace s.config h s.mem = .ok t.mem) := by
  cases i
  case awrite => exact .inr (.inl ⟨_, _, _, h⟩)
  case alloc => exact .inr (.inr (.inl ⟨_, _, h⟩))
  case free => exact .inr (.inr (.inr (.inl ⟨_, h⟩)))
  case loadprog => exact .inr (.inr (.inr (.inr ⟨_, h⟩)))
  all_goals exact .inl h

/-- The channels move by the instruction's own transfer, or not at all (R93). -/
theorem completed_io {i : Instr} {s t : State} (h : Completed i s t) : IoMovesByOwnTransfer i s t := by
  cases i <;> simp only [Completed] at h
  case out => obtain ⟨_, rfl⟩ := h; exact ⟨⟨rfl, rfl⟩, rfl⟩
  case inp =>
    rcases h with ⟨v, rest, hi, rfl⟩ | ⟨hi, _, rfl⟩
    · exact ⟨rfl, rfl, rfl⟩
    · exact ⟨rfl, rfl, by simp [hi]⟩
  case cmov => rcases h with ⟨_, rfl⟩ | ⟨_, rfl⟩ <;> exact ⟨⟨rfl, rfl⟩, rfl⟩
  case alloc => obtain ⟨_, _, _, rfl⟩ := h; exact ⟨⟨rfl, rfl⟩, rfl⟩
  all_goals first
    | (subst h; exact ⟨⟨rfl, rfl⟩, rfl⟩)
    | (obtain ⟨_, _, rfl⟩ := h; exact ⟨⟨rfl, rfl⟩, rfl⟩)

end Sys2Proof.Machine
end

