-- ==== Sys2Proof/Tests/Slice0.lean ====
section
/-! SUPPORT. The implementer's own tests. Expected results are the spec's: the encodings of 30_encoding.md R72,
R73 and R82, and the vectors of 95_test_vectors.md, whose section each group names. Then the witnesses: for each
statement that has hypotheses, states and operands that meet them. -/

namespace Sys2Proof.Tests

open Sys2Proof Sys2Proof.Machine

/-! ### WellFormed: the one check refuses an ill-formed term -/

theorem test_wellFormed_refuses_wide_immediate : (Instr.li .r0 0x02000000).wellFormed = false := by decide
theorem test_wellFormed_accepts_largest_immediate : (Instr.li .r7 0x01FFFFFF).wellFormed = true := by decide

/-! ### Decode: each word written out as opcode, ignored bits, A, B, C (R72) or opcode, A13, imm (R73) -/

theorem test_decode_cmov : decode 0b0000_0000000000000000000_011_010_001 = .cmov .r3 .r2 .r1 := by decide
theorem test_decode_aread : decode 0b0001_1111111111111111111_010_001_101 = .aread .r2 .r1 .r5 := by decide
theorem test_decode_awrite : decode 0b0010_0000000000000000000_001_101_100 = .awrite .r1 .r5 .r4 := by decide
theorem test_decode_add : decode 0b0011_1111111111111111111_001_001_010 = .add .r1 .r1 .r2 := by decide
theorem test_decode_mul : decode 0b0100_0000000000000000000_100_011_010 = .mul .r4 .r3 .r2 := by decide
theorem test_decode_div : decode 0b0101_0000000000000000000_010_000_001 = .div .r2 .r0 .r1 := by decide
theorem test_decode_nand : decode 0b0110_0000000000000000000_111_110_101 = .nand .r7 .r6 .r5 := by decide
theorem test_decode_halt : decode 0b0111_1111111111111111111_111_111_111 = .halt := by decide
theorem test_decode_alloc : decode 0b1000_0000000000000000000_111_110_101 = .alloc .r6 .r5 := by decide
theorem test_decode_free : decode 0b1001_0000000000000000000_111_111_010 = .free .r2 := by decide
theorem test_decode_out : decode 0b1010_0000000000000000000_111_111_011 = .out .r3 := by decide
theorem test_decode_in : decode 0b1011_0000000000000000000_111_111_001 = .inp .r1 := by decide
theorem test_decode_loadprog : decode 0b1100_0000000000000000000_111_110_001 = .loadprog .r6 .r1 := by decide
theorem test_decode_li : decode 0b1101_111_1111111111111111111111110 = .li .r7 0x01FFFFFE := by decide
theorem test_decode_reserved14 : decode 0b1110_0001001000110100010101100111 = .reserved14 := by decide
theorem test_decode_reserved15 : decode 0b1111_0001001000110100010101100111 = .reserved15 := by decide

theorem test_encode_aread : encode (.aread .r2 .r1 .r5) = 0x1000008D := by decide
theorem test_encode_li : encode (.li .r7 0x01FFFFFF) = 0xDFFFFFFF := by decide
theorem test_decodeBytes_big_endian :
    decodeBytes [0x00, 0x00, 0x00, 0x70] = some (.cmov .r1 .r6 .r0, []) := by decide
theorem test_tableWord : decodeTableWord 32 0x9000000A = some (.free .r2) := by decide

/-! ### Small states -/

/-- The next state, if there is one. -/
def nextOf (o : Host.Outcome State Fault Refusal) : Option State :=
  match o with
  | .next t => some t
  | .fault _ => none
  | .refused _ => none

/-- How a step stops, if it stops. -/
def faultOf (o : Host.Outcome State Fault Refusal) : Option Fault :=
  match o with
  | .next _ => none
  | .fault e => some e
  | .refused _ => none

/-- The reset state with an image, registers and further segments. -/
def started (image : List Word) (regs : RegFile) (more : List (Nat × Segment)) (free : List Word)
    (next : Nat) : State :=
  { State.reset with
    regs := regs
    mem := { seg := (0, Segment.ofWords image) :: more, free := free, next := next } }

/-- One step of the image [w, halt] from given registers: the setting of 95_test_vectors.md section 2. -/
def stepOf (w : Word) (regs : RegFile) : Option State :=
  nextOf (step (started [w, 0x70000000] regs [] [] 1))

/-- The same with segment 1 live. -/
def stepWith (w : Word) (regs : RegFile) (seg1 : List Word) : Option State :=
  nextOf (step (started [w, 0x70000000] regs [(1, Segment.ofWords seg1)] [] 2))

/-! ### 95_test_vectors.md 2.1 to 2.3 -/

theorem test_cmov_condition_read_before_write :
    (stepOf 0x000000D3 ⟨0, 0, 9, 0x80000000, 0, 0, 0, 0⟩).map (fun t => (t.reg .r3, t.pc)) = some (9, 1) := by
  decide
theorem test_cmov_zero_keeps :
    (stepOf 0x00000053 ⟨0, 7, 9, 0, 0, 0, 0, 0⟩).map (fun t => (t.reg .r1, t.pc)) = some (7, 1) := by decide
theorem test_aread_reads :
    (stepWith 0x1000008D ⟨0, 1, 0, 0, 0, 1, 0, 0⟩ [0, 99, 0]).map (fun t => t.reg .r2) = some 99 := by decide
theorem test_aread_handle_before_index :
    (stepOf 0x1000008D ⟨0, 9, 0, 0, 0, 100, 0, 0⟩).map (fun t => (t.status, t.fault, t.pc)) =
      some (.faulted, ⟨.invalidHandle, 0, 0x1000008D, 9, 0⟩, 0) := by decide
theorem test_awrite_stores :
    (stepWith 0x2000006C ⟨0, 1, 0, 0, 99, 0, 0, 0⟩ [0, 0, 0]).map (fun t => t.mem.seg) =
      some [(0, Segment.ofWords [0x2000006C, 0x70000000]), (1, Segment.ofWords [99, 0, 0])] := by decide
theorem test_awrite_out_of_bounds :
    (stepWith 0x2000006C ⟨0, 1, 0, 0, 99, 3, 0, 0⟩ [0, 0, 0]).map (fun t => (t.status, t.fault)) =
      some (.faulted, ⟨.outOfBounds, 0, 0x2000006C, 1, 3⟩) := by decide
theorem test_add_wraps :
    (stepOf 0x30000053 ⟨0, 0, 0xFFFFFFFF, 0xFFFFFFFF, 0, 0, 0, 0⟩).map (fun t => t.reg .r1) =
      some 0xFFFFFFFE := by decide
theorem test_add_ignores_unused_bits :
    (stepOf 0x3FFFFE4A ⟨0, 1, 2, 0, 0, 0, 0, 0⟩).map (fun t => t.reg .r1) = some 3 := by decide
theorem test_mul_keeps_low_word :
    (stepOf 0x40000053 ⟨0, 0, 0xFFFFFFFF, 5, 0, 0, 0, 0⟩).map (fun t => t.reg .r1) = some 0xFFFFFFFB := by decide
theorem test_mul_drops_high_word :
    (stepOf 0x40000053 ⟨0, 3, 0x10000, 0x10000, 0, 0, 0, 0⟩).map (fun t => t.reg .r1) = some 0 := by decide
theorem test_div_unsigned :
    (stepOf 0x50000053 ⟨0, 0, 0x80000000, 0xFFFFFFFF, 0, 0, 0, 0⟩).map (fun t => t.reg .r1) = some 0 := by decide
theorem test_div_by_zero :
    (stepOf 0x50000053 ⟨0, 7, 5, 0, 0, 0, 0, 0⟩).map (fun t => (t.status, t.fault, t.reg .r1)) =
      some (.faulted, ⟨.divisionByZero, 0, 0x50000053, 0, 0⟩, 7) := by decide
theorem test_nand :
    (stepOf 0x60000053 ⟨0, 0, 0xF0F0F0F0, 0xFF00FF00, 0, 0, 0, 0⟩).map (fun t => t.reg .r1) =
      some 0x0FFF0FFF := by decide

/-! ### 95_test_vectors.md 2.4 to 2.7 -/

theorem test_halt :
    (stepOf 0x7FFFFFFF ⟨0, 0, 0, 0, 0, 0, 0, 0⟩).map (fun t => (t.status, t.pc, t.output)) =
      some (.halted, 1, []) := by decide
theorem test_alloc_size_read_before_write :
    (stepOf 0x8000001B ⟨0, 0, 0, 2, 0, 0, 0, 0⟩).map (fun t => (t.reg .r3, t.mem.next, t.mem.segment 1)) =
      some (1, 2, some (Segment.ofWords [0, 0])) := by decide
theorem test_alloc_reuses_last_freed :
    (nextOf (step (started [0x8000000B] ⟨0, 0, 0, 3, 0, 0, 0, 0⟩ [(2, Segment.zeros 1)] [1, 3] 4))).map
      (fun t => (t.reg .r1, t.mem.free, t.mem.next)) = some (3, [1], 4) := by decide
theorem test_free_appends :
    (nextOf (step (started [0x90000001] ⟨0, 1, 0, 0, 0, 0, 0, 0⟩ [(1, Segment.ofWords [1, 2])] [3] 4))).map
      (fun t => (t.mem.segment 1, t.mem.free, t.reg .r1)) = some (none, [3, 1], 1) := by decide
theorem test_free_zero_faults :
    (stepOf 0x90000001 ⟨0, 0, 0, 0, 0, 0, 0, 0⟩).map (fun t => t.fault) =
      some ⟨.invalidHandle, 0, 0x90000001, 0, 0⟩ := by decide
theorem test_out_255 :
    (stepOf 0xA0000002 ⟨0, 0, 255, 0, 0, 0, 0, 0⟩).map (fun t => t.output) = some [255] := by decide
theorem test_out_256_faults :
    (stepOf 0xA0000002 ⟨0, 0, 256, 0, 0, 0, 0, 0⟩).map (fun t => (t.fault, t.output)) =
      some (⟨.outputOutOfRange, 0, 0xA0000002, 0, 0⟩, []) := by decide
theorem test_in_byte_is_zero_extended :
    (nextOf (step { started [0xB0000001] ⟨0, 0, 0, 0, 0, 0, 0, 0⟩ [] [] 1 with input := [0xFF, 1] })).map
      (fun t => (t.reg .r1, t.input)) = some (0xFF, [1]) := by decide
theorem test_in_after_end :
    (stepOf 0xB0000001 ⟨0, 0, 0, 0, 0, 0, 0, 0⟩).map (fun t => t.reg .r1) = some 0xFFFFFFFF := by decide
theorem test_loadprog_copies :
    (stepWith 0xC0000030 ⟨0, 0, 0, 0, 0, 0, 1, 0⟩ [0x70000000]).map (fun t => (t.mem.segment 0, t.pc)) =
      some (some (Segment.ofWords [0x70000000]), 0) := by decide
theorem test_loadprog_jump :
    (stepOf 0xC0000001 ⟨0, 3, 0, 0, 0, 0, 0, 0⟩).map (fun t => (t.pc, t.mem.programLen)) = some (3, 2) := by decide
theorem test_li_largest :
    (stepOf 0xDFFFFFFF ⟨0, 0, 0, 0, 0, 0, 0, 0⟩).map (fun t => t.reg .r7) = some 0x01FFFFFF := by decide
theorem test_reserved14 :
    (stepOf 0xE0000000 ⟨0, 0, 0, 0, 0, 0, 0, 0⟩).map (fun t => (t.status, t.fault)) =
      some (.faulted, ⟨.unknownOperation, 0, 0xE0000000, 0, 0⟩) := by decide
theorem test_reserved15 :
    (stepOf 0xF1234567 ⟨0, 0, 0, 0, 0, 0, 0, 0⟩).map (fun t => (t.status, t.fault)) =
      some (.faulted, ⟨.unknownOperation, 0, 0xF1234567, 0, 0⟩) := by decide
theorem test_empty_image_faults_on_fetch :
    (nextOf (step State.reset)).map (fun t => (t.status, t.fault)) =
      some (.faulted, ⟨.outOfBounds, 0, 0, 0, 0⟩) := by decide
theorem test_boot_big_endian :
    (boot Config.standard [0x70, 0, 0, 0] [] true).mem.segment 0 = some (Segment.ofWords [0x70000000]) := by decide
theorem test_boot_five_bytes :
    ((boot Config.standard [0x70, 0, 0, 0, 1] [] true).status,
      (boot Config.standard [0x70, 0, 0, 0, 1] [] true).fault) =
      (.faulted, ⟨.loadError, 0, 0, 0, 0⟩) := by decide
theorem test_fault_codes :
    (FaultKind.noFault.code, FaultKind.loadError.code, FaultKind.invalidHandle.code, FaultKind.outOfBounds.code,
      FaultKind.divisionByZero.code, FaultKind.unknownOperation.code, FaultKind.allocationFailure.code,
      FaultKind.outputOutOfRange.code) = (some 0, some 1, some 2, some 3, some 4, some 5, some 6, some 7) := by
  decide
theorem test_withFetchWord_runs_first :
    (nextOf (step (State.reset.withFetchWord 32 0xD0000048))).map (fun t => (t.reg .r0, t.pc)) = some (72, 1) := by
  decide

/-- Reset with an image under REG_RESET = UNWRITTEN (R23; V3 gives the fault, 95_test_vectors.md the `li` that a
program then needs before it divides by the zero of reset). -/
def unwrittenBoot (image : List Byte) : State :=
  boot { Config.standard with regReset := .unwritten } image [] true

theorem test_unwritten_register_faults :
    (nextOf (step (unwrittenBoot [0x50, 0, 0, 0x81]))).map (fun t => (t.status, t.fault, t.pc)) =
      some (.faulted, ⟨.unwrittenRegister, 0, 0x50000081, 0, 0⟩, 0) := by decide
theorem test_written_register_holds_a_value :
    (nextOf (step (unwrittenBoot [0xD2, 0, 0, 7]))).map (fun t => (t.reg .r1, t.unwritten)) =
      some (7, [.r0, .r2, .r3, .r4, .r5, .r6, .r7]) := by decide

/-! ### Witnesses: the hypotheses of the statements can be met, clause by clause -/

/-- A running state at an `aread r2, r1, r5` with segment 1 = [0, 99, 0] and r1 = 1, r5 = 2: the last index. -/
def wRead : State := started [0x1000008D] ⟨0, 1, 0, 0, 99, 2, 0, 0⟩ [(1, Segment.ofWords [0, 99, 0])] [] 2
/-- The same with r5 = 3, the first index past the end. -/
def wPast : State := started [0x1000008D] ⟨0, 1, 0, 0, 99, 3, 0, 0⟩ [(1, Segment.ofWords [0, 99, 0])] [] 2
/-- A state whose fetched word is an input instruction and whose channel has no answer. -/
def wWait : State := { started [0xB0000001] ⟨0, 0, 0, 0, 0, 0, 0, 0⟩ [] [] 1 with inputEnded := false }

theorem witness_DecodeOfEncodeIsIdentity : (Instr.li .r7 0x01FFFFFF).wellFormed = true := by decide
theorem witness_IgnoredBitsDoNotChangeDecoding :
    (0x70000000 : Word) &&& usedBits (decode 0x70000000) = 0x7FFFFFFF &&& usedBits (decode 0x70000000) := by decide
theorem witness_ImmediateIsZeroExtended :
    (0xDFFFFFFF : Word).toNat / 2 ^ 28 = 13 ∧ decode 0xDFFFFFFF = .li .r7 0x01FFFFFF := by decide
theorem witness_StepRunsTheDecodedInstruction :
    wRead.status = .running ∧ fetch wRead = .ok (encode (.aread .r2 .r1 .r5)) := ⟨rfl, rfl⟩
theorem witness_StepOnlyWhileRunning :
    (nextOf (step wRead)).isSome = true ∧ ({ wRead with status := .halted } : State).status = .halted ∧
    ({ wRead with status := .faulted } : State).status = .faulted := by decide
theorem witness_OnlyAnInputStepWaits :
    wWait.status = .running ∧ fetch wWait = .ok 0xB0000001 ∧ decode 0xB0000001 = .inp .r1 ∧ wWait.input = [] ∧
    wWait.inputEnded = false ∧ faultOf (step wWait) = some .inputWait :=
  ⟨rfl, rfl, rfl, rfl, rfl, by decide⟩
theorem witness_FetchPastTheProgramFaults :
    State.reset.status = .running ∧ State.reset.mem.programLen ≤ State.reset.pc.toNat := by decide
theorem witness_PcAddsOneExceptLoadProgramAndFault :
    (nextOf (step wRead)).map State.status = some .running ∧
    (nextOf (step wPast)).map State.status = some .faulted ∧
    (stepOf 0xC0000001 ⟨0, 0, 0, 0, 0, 0, 0, 0⟩).map State.status = some .running := by decide
theorem witness_StatusMovesOnlyByHaltOrFault :
    (stepOf 0x70000000 ⟨0, 0, 0, 0, 0, 0, 0, 0⟩).map State.status = some .halted ∧
    (nextOf (step wPast)).map State.status = some .faulted := by decide
theorem witness_FaultingStepChangesNothingElse :
    (nextOf (step wPast)).map State.status = some .faulted := by decide
theorem witness_InstructionMakesAtMostOneOfEachWrite :
    wRead.status = .running ∧ (nextOf (exec (.aread .r2 .r1 .r5) wRead)).map State.status = some .running ∧
    (nextOf (exec (.awrite .r1 .r5 .r4) wRead)).map State.status = some .running := by
  decide
theorem witness_ChannelsMoveByAtMostOneByte :
    (stepOf 0xA0000002 ⟨0, 0, 72, 0, 0, 0, 0, 0⟩).map State.output = some [72] := by decide
theorem witness_StepKeepsTheInvariant : State.reset.Inv ∧ (nextOf (step State.reset)).isSome = true := by
  have only : ∀ h g, State.reset.mem.segment h = some g → h = 0 ∧ g = ⟨0, []⟩ := by
    intro h g e
    unfold Memory.segment State.reset at e
    simp only [assocGet] at e
    split at e
    · next hh => exact ⟨BitVec.eq_of_toNat_eq (by simpa using hh), by simpa using e.symm⟩
    · cases e
  refine ⟨⟨by decide, by decide, ⟨⟨⟨0, []⟩, rfl⟩, nofun, nofun, by decide, ?_, ?_, nofun, by decide⟩,
    by decide, ⟨by decide, fun _ => rfl⟩, fun _ => rfl⟩, by decide⟩
  · rintro h ⟨g, hg⟩; obtain ⟨rfl, -⟩ := only h g hg; decide
  · intro h g hg; obtain ⟨-, rfl⟩ := only h g hg; decide
theorem witness_BootMeetsTheInvariant :
    Config.standard.legal ∧ (boot Config.standard [0x70, 0, 0, 0] [] true).status = .running := by decide
theorem witness_ReadChecksHandleThenBounds :
    wRead.mem.segment 9 = none ∧ wRead.mem.segment 1 = some ⟨3, [(1, 99)]⟩ ∧
    3 ≤ (3 : Word).toNat ∧ (2 : Word).toNat < 3 := by decide
theorem witness_WriteStoresOneWord :
    wRead.mem.segment 9 = none ∧ wRead.mem.segment 1 = some ⟨3, [(1, 99)]⟩ ∧
    3 ≤ (3 : Word).toNat ∧ (2 : Word).toNat < 3 ∧ ((1 : Word), (1 : Word)) ≠ (1, 2) := by decide
theorem witness_FreeUnbindsAndAppends :
    wRead.mem.segment 9 = none ∧ (1 : Word) ≠ 0 ∧ wRead.mem.segment 1 ≠ none ∧ (0 : Word) ≠ 1 := by decide
theorem witness_FreedWordsAreGone :
    (∃ m', memFree 1 wRead.mem = .ok m') ∧ (2 : Word).toNat < (3 : Word).toNat ∧
    (∃ r, memAlloc Config.standard 3 wRead.mem = .ok r) ∧
    ∃ r, memAlloc Config.standard 3 { wRead.mem with free := [7], next := 8 } = .ok r :=
  ⟨⟨_, rfl⟩, by decide, ⟨_, rfl⟩, ⟨_, rfl⟩⟩
theorem witness_HandlesAreReusedLastInFirstOut :
    ∃ m1 m2 r3 r4, memFree 1 ⟨[(0, ⟨0, []⟩), (1, ⟨0, []⟩), (2, ⟨0, []⟩)], [], 3⟩ = .ok m1 ∧
      memFree 2 m1 = .ok m2 ∧ memAlloc Config.standard 1 m2 = .ok r3 ∧
      memAlloc Config.standard 1 r3.2 = .ok r4 := ⟨_, _, _, _, rfl, rfl, rfl, rfl⟩
theorem witness_AllocateNeverReturnsALiveHandle :
    HeapInv Config.standard State.reset.mem ∧ ∃ r, memAlloc Config.standard 3 State.reset.mem = .ok r :=
  ⟨witness_StepKeepsTheInvariant.1.heap, _, rfl⟩
/-- The heap after one allocation from reset meets the invariant, with a live handle besides 0. -/
theorem witness_TotalFollowsEachRequest :
    ∃ m : Memory, m.wf ∧ HeapInv Config.standard m ∧ m.segment 1 = some ⟨3, []⟩ ∧ (1 : Word) ≠ 0 ∧
      (∃ r, memAlloc Config.standard 3 m = .ok r) ∧ (∃ m', memFree 1 m = .ok m') ∧
      ∃ m', memReplace Config.standard 1 m = .ok m' := by
  have only : ∀ h g, Memory.segment ⟨[(0, ⟨0, []⟩), (1, ⟨3, []⟩)], [], 2⟩ h = some g →
      h.toNat < 2 ∧ g.len ≤ 3 := by
    intro h g e
    unfold Memory.segment at e
    simp only [assocGet] at e
    split at e
    · next hh => cases e; rw [hh]; exact ⟨by decide, by decide⟩
    · split at e
      · next hh => cases e; rw [hh]; exact ⟨by decide, by decide⟩
      · cases e
  refine ⟨⟨[(0, ⟨0, []⟩), (1, ⟨3, []⟩)], [], 2⟩, by decide,
    ⟨⟨⟨0, []⟩, rfl⟩, nofun, nofun, by decide, ?_, ?_, nofun, by decide⟩, rfl, by decide,
    ⟨_, rfl⟩, ⟨_, rfl⟩, ⟨_, rfl⟩⟩
  · rintro h ⟨g, hg⟩; exact (only h g hg).1
  · intro h g hg; exact Nat.le_trans (only h g hg).2 (by decide)
theorem witness_ReplacedProgramIsIndependent :
    ∃ m', (1 : Word) ≠ 0 ∧ memReplace Config.standard 1 wRead.mem = .ok m' ∧
      (∃ m'', memWrite m' 1 2 5 = .ok m'') ∧ ∃ m'', memWrite m' 0 2 5 = .ok m'' :=
  ⟨_, by decide, rfl, ⟨_, rfl⟩, ⟨_, rfl⟩⟩
/-- `awrite r0, r5, r4` at index 0 writes index 1, the very next instruction (95_test_vectors.md 2.2). -/
theorem witness_NextFetchSeesTheWrite :
    ∃ s t, s.CanRead [.r0, .r5, .r4] ∧ s.reg .r0 = 0 ∧ s.mem.segment 0 = some (Segment.ofWords [0x2000002C, 0xE0000000]) ∧
      (s.reg .r5).toNat < 2 ∧ exec (.awrite .r0 .r5 .r4) s = .next t ∧ t.pc.toNat = (s.reg .r5).toNat :=
  ⟨started [0x2000002C, 0xE0000000] ⟨0, 0, 0, 0, 0x70000000, 1, 0, 0⟩ [] [] 1, _, by decide, rfl, rfl, by decide, rfl, rfl⟩
theorem witness_NextFetchSeesTheNewProgram :
    ∃ t u, wRead.reg .r1 ≠ 0 ∧ exec (.loadprog .r1 .r5) wRead = .next t ∧ t.status ≠ .faulted ∧
      t.pc.toNat < 3 ∧ exec (.loadprog .r1 .r5) wPast = .next u ∧ u.status ≠ .faulted ∧ 3 ≤ u.pc.toNat :=
  ⟨_, _, by decide, rfl, by decide, by decide, rfl, by decide, by decide⟩
theorem witness_CmovMovesOnNonZero :
    wRead.CanRead [.r2, .r1] ∧ wRead.reg .r1 ≠ 0 ∧ wRead.CanRead [.r2, .r0] ∧ wRead.reg .r0 = 0 := by decide
theorem witness_AddIsModulo : wRead.CanRead [.r1, .r5] := by decide
theorem witness_MulIsModulo : wRead.CanRead [.r1, .r5] := by decide
theorem witness_NandIsBitwise : wRead.CanRead [.r1, .r5] := by decide
theorem witness_InstructionsReadAndWriteOnlyTheirRegisters :
    (Instr.aread .r2 .r1 .r5).writtenReg ≠ some .r1 ∧ Reg.r2 ∉ (Instr.aread .r2 .r1 .r5).readRegs ∧
    (nextOf (exec (.aread .r2 .r1 .r5) wRead)).isSome = true ∧
    wRead.CanRead [.r1, .r5] ∧ (nextOf (exec (.cmov .r1 .r2 .r0) wRead)).isSome = true ∧ wRead.reg .r0 = 0 ∧
    Reg.r1 ∉ (Instr.inp .r1).readRegs ∧ faultOf (exec (.inp .r1) wWait) = some .inputWait := by decide
theorem witness_AreadLoadsOrFaults_completes :
    wRead.CanRead [.r1, .r5] ∧ wRead.mem.segment (wRead.reg .r1) = some ⟨3, [(1, 99)]⟩ ∧
    (wRead.reg .r5).toNat < 3 := by decide
theorem witness_AreadLoadsOrFaults_invalidHandle :
    wRead.CanRead [.r4, .r5] ∧ fetch wRead = .ok 0x1000008D ∧ wRead.mem.segment (wRead.reg .r4) = none :=
  ⟨by decide, rfl, by decide⟩
theorem witness_AreadLoadsOrFaults_outOfBounds :
    wPast.CanRead [.r1, .r5] ∧ fetch wPast = .ok 0x1000008D ∧
    wPast.mem.segment (wPast.reg .r1) = some ⟨3, [(1, 99)]⟩ ∧
    3 ≤ (wPast.reg .r5).toNat := ⟨by decide, rfl, by decide, by decide⟩
/-- awrite's clauses, with A = r1, B = r5 (the last index, then the first past the end) and A = r4 (not live). -/
theorem witness_AwriteStoresOrFaults :
    wRead.CanRead [.r1, .r5, .r4] ∧ wRead.CanRead [.r4, .r5, .r4] ∧ wPast.CanRead [.r1, .r5, .r4] ∧
    wRead.mem.segment (wRead.reg .r1) = some ⟨3, [(1, 99)]⟩ ∧ (wRead.reg .r5).toNat < 3 ∧
    wRead.mem.segment (wRead.reg .r4) = none ∧ wPast.mem.segment (wPast.reg .r1) = some ⟨3, [(1, 99)]⟩ ∧
    3 ≤ (wPast.reg .r5).toNat := by decide
theorem witness_DivIsUnsignedFloorOrFaults :
    wRead.CanRead [.r1, .r5] ∧ wRead.reg .r5 ≠ 0 ∧ wRead.CanRead [.r1, .r0] ∧ fetch wRead = .ok 0x1000008D ∧
    wRead.reg .r0 = 0 := ⟨by decide, by decide, by decide, rfl, by decide⟩
theorem witness_ArithmeticLawsHold : (7 : Word) ≠ 0 ∧ (6 : Word).toNat < (7 : Word).toNat := by decide
theorem witness_AllocMakesAZeroedSegment_fresh :
    wRead.CanRead [.r5] ∧ Admitted wRead.config wRead.mem.total (wRead.reg .r5).toNat ∧ wRead.mem.free = [] ∧
    wRead.mem.next < 2 ^ 32 := ⟨by decide, ⟨by decide, nofun⟩, rfl, by decide⟩
/-- A state with FREE = [1, 3], and one whose allocation of 2 words just fills its capacity of 3. -/
def wFree : State := started [0x8000000B] ⟨0, 0, 0, 2, 0, 0, 0, 0⟩ [(2, Segment.zeros 0)] [1, 3] 4
def wFull (capacity : Nat) : State :=
  { wFree with config := { Config.standard with heapCapacityWords := some capacity } }
theorem witness_AllocMakesAZeroedSegment_reuse :
    (wFull 3).CanRead [.r3] ∧ Admitted (wFull 3).config (wFull 3).mem.total ((wFull 3).reg .r3).toNat ∧
    (wFull 3).mem.free = [1] ++ [3] := ⟨by decide, ⟨by decide, fun c h => by cases h; decide⟩, rfl⟩
theorem witness_AllocFailsBeyondTheLimits_capacity :
    (wFull 2).CanRead [.r3] ∧ fetch (wFull 2) = .ok 0x8000000B ∧
    ¬ Admitted (wFull 2).config (wFull 2).mem.total ((wFull 2).reg .r3).toNat :=
  ⟨by decide, rfl, fun h => absurd (h.2 2 rfl) (by decide)⟩
theorem witness_AllocFailsBeyondTheLimits_size :
    ∃ s, s.CanRead [.r3] ∧ fetch s = .ok 0x8000000B ∧ ¬ Admitted s.config s.mem.total (s.reg .r3).toNat :=
  ⟨{ wFree with config := { Config.standard with maxSegmentWords := 1 } }, by decide, rfl,
    fun h => absurd h.1 (by decide)⟩
theorem witness_AllocFailsBeyondTheLimits_handles :
    ∃ s, s.CanRead [.r3] ∧ fetch s = .ok 0x8000000B ∧ s.mem.free = [] ∧ 2 ^ 32 ≤ s.mem.next :=
  ⟨started [0x8000000B] ⟨0, 0, 0, 1, 0, 0, 0, 0⟩ [] [] (2 ^ 32), by decide, rfl, rfl, by decide⟩
theorem witness_FreeUnbindsOrFaults :
    wRead.CanRead [.r1] ∧ wRead.CanRead [.r0] ∧ wRead.CanRead [.r4] ∧
    wRead.reg .r1 ≠ 0 ∧ wRead.mem.segment (wRead.reg .r1) = some ⟨3, [(1, 99)]⟩ ∧
    fetch wRead = .ok 0x1000008D ∧ wRead.reg .r0 = 0 ∧ wRead.mem.segment (wRead.reg .r4) = none :=
  ⟨by decide, by decide, by decide, by decide, by decide, rfl, by decide, by decide⟩
theorem witness_OutEmitsOneByteOrFaults :
    ∃ s, s.CanRead [.r1] ∧ s.CanRead [.r2] ∧ fetch s = .ok 0xA0000002 ∧ (s.reg .r1).toNat ≤ 255 ∧
      255 < (s.reg .r2).toNat ∧
      s.config.outputPolicy = .fault :=
  ⟨started [0xA0000002] ⟨0, 255, 256, 0, 0, 0, 0, 0⟩ [] [] 1, by decide, by decide, rfl, by decide, by decide, rfl⟩
theorem witness_OutEmitsOneByteOrFaults_truncate :
    ∃ s : State, s.CanRead [.r2] ∧ s.config.outputPolicy = .truncate ∧ 255 < (s.reg .r2).toNat :=
  ⟨{ started [] ⟨0, 0, 256, 0, 0, 0, 0, 0⟩ [] [] 1 with
      config := { Config.standard with outputPolicy := .truncate } }, by decide, rfl, by decide⟩
theorem witness_InReadsAByteOrTheSentinel :
    ({ wWait with input := [0xFF] } : State).input = 0xFF :: [] ∧ State.reset.input = [] ∧
    State.reset.inputEnded = true := ⟨rfl, rfl, rfl⟩
theorem witness_HostAnswerEndsTheWait : wWait.input = [] ∧ wWait.inputEnded = false := ⟨rfl, rfl⟩
theorem witness_LoadprogCopiesAndJumps :
    wRead.CanRead [.r0, .r5] ∧ wRead.CanRead [.r1, .r5] ∧
    wRead.reg .r0 = 0 ∧ wRead.reg .r1 ≠ 0 ∧ wRead.mem.segment (wRead.reg .r1) = some ⟨3, [(1, 99)]⟩ ∧
    wRead.config.heapCapacityWords = none := by decide
/-- The vector of 95_test_vectors.md 2.6: segment 1 of 5 words, len(0) = 1, so
1 + 5 + 5 − 1 = 10 words: a capacity of 10 suffices and one of 9 does not. -/
def wCopy (capacity : Nat) : State :=
  { started [0xC0000030] ⟨0, 0, 0, 0, 0, 0, 1, 9⟩ [(1, Segment.zeros 5)] [] 2 with
    config := { Config.standard with heapCapacityWords := some capacity } }
theorem witness_LoadprogCopiesAndJumps_capacity :
    (wCopy 10).CanRead [.r6, .r0] ∧ (wCopy 10).reg .r6 ≠ 0 ∧
    (wCopy 10).mem.segment ((wCopy 10).reg .r6) = some (Segment.zeros 5) ∧
    ∀ k, (wCopy 10).config.heapCapacityWords = some k →
      (wCopy 10).mem.total - (wCopy 10).mem.programLen + 5 ≤ k :=
  ⟨by decide, by decide, by decide, fun k h => by cases h; decide⟩
theorem witness_LoadprogFaults :
    (wCopy 9).CanRead [.r7, .r0] ∧ (wCopy 9).CanRead [.r6, .r0] ∧ fetch (wCopy 9) = .ok 0xC0000030 ∧
    (wCopy 9).reg .r7 ≠ 0 ∧ (wCopy 9).reg .r6 ≠ 0 ∧ (wCopy 9).mem.segment ((wCopy 9).reg .r7) = none ∧
    (wCopy 9).mem.segment ((wCopy 9).reg .r6) = some (Segment.zeros 5) ∧
    (wCopy 9).config.heapCapacityWords = some 9 ∧
    9 < (wCopy 9).mem.total - (wCopy 9).mem.programLen + 5 :=
  ⟨by decide, by decide, rfl, by decide, by decide, by decide, by decide, rfl, by decide⟩
theorem witness_UndefinedCodesRaiseUnknownOperation :
    ∃ s : State, s.status = .running ∧ fetch s = .ok 0xE0000000 ∧ 14 ≤ (0xE0000000 : Word).toNat / 2 ^ 28 :=
  ⟨started [0xE0000000] ⟨0, 0, 0, 0, 0, 0, 0, 0⟩ [] [] 1, rfl, rfl, by decide⟩
theorem witness_BootLoadsTheImageBigEndian :
    ([0x70, 0, 0, 1] : List Byte).length = 4 * 1 ∧ 1 ≤ Config.standard.maxSegmentWords ∧ 1 ≤ 2 ^ 32 ∧
    Config.standard.heapCapacityWords = none ∧ (0 : Word).toNat < 1 ∧
    ([0x70, 0, 0, 1] : List Byte)[4 * (0 : Word).toNat + 3]? = some 1 ∧ Config.standard.regReset = .zero ∧
    ({ Config.standard with regReset := .unwritten } : Config).regReset = .unwritten := by decide
theorem witness_MalformedImageIsALoadError :
    ([1, 2, 3, 4, 5] : List Byte).length % 4 ≠ 0 ∧
    ({ Config.standard with maxSegmentWords := 1 } : Config).maxSegmentWords <
      ([1, 2, 3, 4, 5, 6, 7, 8] : List Byte).length / 4 ∧
    ({ Config.standard with heapCapacityWords := some 1 } : Config).heapCapacityWords = some 1 := by decide
/-- The word of `cmov r3, r2, r1`, and one of `li r7`: registers with the numbers of its fields. -/
theorem witness_EveryWordDecodesByItsFields :
    Reg.r3.bits.toNat = (0x000000D1 : Word).toNat / 2 ^ 6 % 8 ∧ Reg.r2.bits.toNat = (0x000000D1 : Word).toNat / 2 ^ 3 % 8 ∧
    Reg.r1.bits.toNat = (0x000000D1 : Word).toNat % 8 ∧ Reg.r0.bits.toNat = (0x000000D1 : Word).toNat / 2 ^ 25 % 8 ∧
    (0x000000D1 : Word).toNat / 2 ^ 28 = 0 ∧ Reg.r7.bits.toNat = (0xDE000000 : Word).toNat / 2 ^ 25 % 8 ∧
    Reg.r0.bits.toNat = (0xDE000000 : Word).toNat % 8 ∧ (0xDE000000 : Word).toNat / 2 ^ 28 = 13 := by decide
theorem witness_ReadOfAnUnwrittenRegisterFaults :
    fetch (unwrittenBoot [0x50, 0, 0, 0x81]) = .ok 0x50000081 ∧ Reg.r1 ∈ (Instr.div .r2 .r0 .r1).readRegs ∧ Reg.r1 ∈ (unwrittenBoot [0x50, 0, 0, 0x81]).unwritten ∧
    (unwrittenBoot [0x50, 0, 0, 0x81]).fault.kind ≠ .unwrittenRegister ∧
    (nextOf (exec (.div .r2 .r0 .r1) (unwrittenBoot [0x50, 0, 0, 0x81]))).map (fun t => t.fault.kind) =
      some .unwrittenRegister ∧
    State.reset.Inv ∧ State.reset.config.regReset = .zero ∧ State.reset.status = .running ∧
    (nextOf (exec (.add .r2 .r0 .r1) State.reset)).isSome = true :=
  ⟨rfl, by decide, by decide, by decide, by decide, witness_StepKeepsTheInvariant.1, rfl, rfl, by decide⟩
theorem witness_WrittenRegistersKeepAValue :
    fetch (unwrittenBoot [0xD2, 0, 0, 7]) = .ok 0xD2000007 ∧ (decode 0xD2000007).writtenReg = some .r1 ∧
    (nextOf (step (unwrittenBoot [0xD2, 0, 0, 7]))).map (fun t => (t.status, t.unwritten)) =
      some (.running, [.r0, .r2, .r3, .r4, .r5, .r6, .r7]) ∧
    Reg.r1 ∈ (unwrittenBoot [0xD2, 0, 0, 7]).unwritten := ⟨rfl, by decide, by decide, by decide⟩

end Sys2Proof.Tests
end

/-! ### What an instruction does with a register it does not read (10_state.md R22)

A write of v to a register r the instruction does not read is put before it. Either the instruction overwrites r, and
ends as it would have without that write; or it leaves r alone, and the write may as well come after it. -/

namespace Sys2Proof.Machine

/-! #### Two register writes in a row -/

theorem RegFile.set_set_same (f : RegFile) (r : Reg) (v x : Word) : (f.set r v).set r x = f.set r x := by
  cases r <;> rfl

theorem RegFile.set_comm (f : RegFile) {r d : Reg} (v x : Word) (h : r ≠ d) :
    (f.set r v).set d x = (f.set d x).set r v := by
  cases r <;> cases d <;> first | rfl | exact absurd rfl h

/-- The later write to the same register stands. -/
theorem State.setReg_setReg_same (s : State) (r : Reg) (v x : Word) :
    (s.setReg r v).setReg r x = s.setReg r x := by
  simp [State.setReg, RegFile.set_set_same]

/-- Writes to two registers may change places. -/
theorem State.setReg_comm (s : State) {r d : Reg} (v x : Word) (h : r ≠ d) :
    (s.setReg r v).setReg d x = (s.setReg d x).setReg r v := by
  simp [State.setReg, RegFile.set_comm _ _ _ h, Bool.and_comm]

/-- Writing a register that is not among rs does not change whether rs can be read. -/
theorem canRead_setReg_iff {rs : List Reg} {r : Reg} (h : r ∉ rs) (s : State) (v : Word) :
    (s.setReg r v).CanRead rs ↔ s.CanRead rs := by
  refine forall₂_congr fun d hd => not_congr ?_
  have hne : d ≠ r := fun e => h (e ▸ hd)
  simp [hne]

/-! #### The two outcomes, without the write of v to r and with it -/

/-- How the outcomes of i from s and from `s.setReg r v` correspond. -/
inductive OverwrittenOrKept (i : Instr) (r : Reg) (v : Word) (s : State) :
    Host.Outcome State Fault Refusal → Host.Outcome State Fault Refusal → Prop
  /-- i writes r itself, and the value it found there is gone. -/
  | overwritten {t : State} : i.writtenReg = some r → t.Holds r (t.reg r) →
      OverwrittenOrKept i r v s (.next t) (.next t)
  /-- i leaves r alone. -/
  | kept {t : State} : SameReg r s t → OverwrittenOrKept i r v s (.next t) (.next (t.setReg r v))
  /-- There is no step, for the same reason (R95). -/
  | stopped {e : Fault} : OverwrittenOrKept i r v s (.fault e) (.fault e)

namespace OverwrittenOrKept

variable {i : Instr} {r : Reg} {v : Word} {s : State}

/-- An instruction that ends by writing its register d, from a state that still has r as s has it. -/
theorem of_write {d : Reg} (hd : i.writtenReg = some d) (x : Word) {u : State} (hu : SameReg r s u) :
    OverwrittenOrKept i r v s (.next (u.setReg d x).advance) (.next ((u.setReg r v).setReg d x).advance) := by
  by_cases h : r = d
  · subst h
    rw [State.setReg_setReg_same]
    refine .overwritten hd ⟨rfl, ?_⟩
    simp
  · rw [State.setReg_comm u v x h]
    obtain ⟨hreg, hunwritten⟩ := sameReg_setReg u x h
    exact .kept ⟨hreg.trans hu.1, hunwritten.trans hu.2⟩

/-- A fatal error writes no register, and its record does not depend on any (R152). -/
theorem of_trap (f : FaultInfo) : OverwrittenOrKept i r v s (trap f s) (trap f (s.setReg r v)) :=
  .kept (t := s.raise f) ⟨rfl, Iff.rfl⟩

theorem of_orTrap {α : Type} {q : Except FaultInfo α} {k k' : α → State}
    (h : ∀ a, OverwrittenOrKept i r v s (.next (k a)) (.next (k' a))) :
    OverwrittenOrKept i r v s (orTrap s q k) (orTrap (s.setReg r v) q k') := by
  cases q with
  | ok a => exact h a
  | error f => exact of_trap f

theorem of_reading {rs : List Reg} (hr : r ∉ rs) {k k' : Host.Outcome State Fault Refusal}
    (h : OverwrittenOrKept i r v s k k') :
    OverwrittenOrKept i r v s (reading rs s k) (reading rs (s.setReg r v) k') := by
  rcases reading_cases rs s k with ⟨hs, e⟩ | ⟨hs, e⟩
  · rw [e, reading_of_canRead ((canRead_setReg_iff hr s v).mpr hs)]
    exact h
  · rw [e, reading_of_not_canRead (mt (canRead_setReg_iff hr s v).mp hs)]
    exact of_trap _

end OverwrittenOrKept

/-- R22 for two runs: a write to a register that i does not read is overwritten by i, or kept through it. -/
theorem exec_setReg_unread {i : Instr} {r : Reg} (hr : r ∉ i.readRegs) (s : State) (v : Word) :
    OverwrittenOrKept i r v s (exec i s) (exec i (s.setReg r v)) := by
  have same : SameReg r s s := ⟨rfl, Iff.rfl⟩
  have operand : ∀ {d}, d ∈ i.readRegs → (s.setReg r v).reg d = s.reg d := fun hd =>
    s.reg_setReg_other v fun e => hr (e ▸ hd)
  cases i <;> simp only [Instr.readRegs, List.forall_mem_cons] at operand
  case add a b c | mul a b c | nand a b c =>
    refine .of_reading hr ?_
    simp only [operand]
    exact .of_write rfl _ same
  case cmov a b c =>
    refine .of_reading hr ?_
    simp only [operand]
    split
    · exact .of_write rfl _ same
    · exact .kept (t := s.advance) same
  case aread a b c | div a b c =>
    refine .of_reading hr ?_
    simp only [operand]
    exact .of_orTrap fun x => .of_write rfl x same
  case alloc b c =>
    refine .of_reading hr ?_
    simp only [operand]
    exact .of_orTrap fun x => .of_write rfl x.1 (u := s.setMem x.2) same
  case awrite a b c | free c =>
    refine .of_reading hr ?_
    simp only [operand]
    exact .of_orTrap fun m => .kept (t := (s.setMem m).advance) same
  case loadprog b c =>
    refine .of_reading hr ?_
    simp only [operand]
    exact .of_orTrap fun m => .kept (t := (s.setMem m).jump (s.reg c)) same
  case out c =>
    refine .of_reading hr ?_
    simp only [operand, State.setReg_config]
    split
    · exact .kept (t := (s.emit _).advance) same
    · exact .of_trap _
  case inp c =>
    have sameAnswer : inByte (s.setReg r v) = inByte s := rfl
    simp only [exec, execInp, sameAnswer]
    split
    · exact .of_write rfl _ (u := s.consumeInput) same
    · exact .of_write rfl _ same
    · exact .stopped
  case li a value => exact .of_write rfl value same
  case halt => exact .kept (t := s.stop.advance) same
  case reserved14 | reserved15 => exact .of_trap _

/-- The same for a next state: r is overwritten in both runs, or kept in both. -/
theorem exec_setReg_unread_next {i : Instr} {r : Reg} (hr : r ∉ i.readRegs) {s t : State} (v : Word)
    (e : exec i s = .next t) :
    (i.writtenReg = some r ∧ t.Holds r (t.reg r) ∧ exec i (s.setReg r v) = .next t) ∨
    (SameReg r s t ∧ exec i (s.setReg r v) = .next (t.setReg r v)) := by
  have h := exec_setReg_unread hr s v
  rw [e] at h
  generalize exec i (s.setReg r v) = o at h ⊢
  cases h with
  | overwritten hw hold => exact .inl ⟨hw, hold, rfl⟩
  | kept hsame => exact .inr ⟨hsame, rfl⟩

/-- The same where there is no step. -/
theorem exec_setReg_unread_fault {i : Instr} {r : Reg} (hr : r ∉ i.readRegs) {s : State} (v : Word) {e : Fault}
    (he : exec i s = .fault e) : exec i (s.setReg r v) = .fault e := by
  have h := exec_setReg_unread hr s v
  rw [he] at h
  generalize exec i (s.setReg r v) = o at h ⊢
  cases h
  rfl

/-! #### The table's two columns -/

/-- R22's writes: no register but the table's, whether i completes or takes a fault. -/
theorem exec_sameReg_of_not_written {i : Instr} {s t : State} {r : Reg} (e : exec i s = .next t)
    (hr : i.writtenReg ≠ some r) : SameReg r s t := by
  rcases exec_next e with ⟨f, -, rfl⟩ | h
  · exact ⟨rfl, Iff.rfl⟩
  · exact completed_regs h hr

/-- cmov with a condition of 0 writes no register (R100). -/
theorem exec_cmov_sameRegs_of_zero {a b c : Reg} {s t : State} (hc : s.reg c = 0)
    (e : exec (.cmov a b c) s = .next t) : SameRegs s t := by
  rcases exec_next e with ⟨f, -, rfl⟩ | ⟨hne, -⟩ | ⟨-, rfl⟩
  · exact fun _ => ⟨rfl, Iff.rfl⟩
  · exact absurd hc hne
  · exact fun _ => ⟨rfl, Iff.rfl⟩

/-- Settles O30: the two frame clauses by what an instruction can do, and the two-run clause by moving the write to
the unread register past the instruction. -/
theorem instructionsReadAndWriteOnlyTheirRegisters :
    Obligations.InstructionsReadAndWriteOnlyTheirRegisters := by
  intro i s r
  refine ⟨fun t e hw => exec_sameReg_of_not_written e hw, ?_,
    fun hr v => ⟨fun t e => ?_, fun e => exec_setReg_unread_fault hr v⟩⟩
  · rintro a b c t rfl hc e
    exact exec_cmov_sameRegs_of_zero hc e r
  · rcases exec_setReg_unread_next hr v e with ⟨hw, hold, e'⟩ | ⟨hsame, e'⟩
    · exact ⟨t, e', fun _ _ => ⟨rfl, Iff.rfl⟩, .inl ⟨hw, hold, hold⟩,
        ⟨fun _ _ => rfl, rfl⟩, ⟨⟨rfl, rfl⟩, rfl⟩, ⟨rfl, rfl, rfl⟩, rfl⟩
    · exact ⟨t.setReg r v, e', fun _ hne => sameReg_setReg t v hne, .inr ⟨hsame, holds_setReg t r v⟩,
        ⟨fun _ _ => rfl, rfl⟩, ⟨⟨rfl, rfl⟩, rfl⟩, ⟨rfl, rfl, rfl⟩, rfl⟩

end Sys2Proof.Machine

/-! ### What the memory controller's requests leave to be read (20_memory.md R42 to R49)

Which answer a request gives, said by the liveness and the bounds it checks; and what the memory it answers binds and
reads, under its own handle and under every other. -/

namespace Sys2Proof.Machine

/-! #### Read and write by liveness and bounds -/

section

variable {m m' : Memory} {h i v : Word} {g : Segment}

theorem memRead_of_not_live (e : m.segment h = none) (i : Word) :
    memRead m h i = .error ⟨.invalidHandle, h, 0⟩ := by simp [memRead, e]

theorem memRead_of_lt (e : m.segment h = some g) (hi : i.toNat < g.len) :
    memRead m h i = .ok (g.read i.toNat) := by simp [memRead, e, hi]

theorem memRead_of_len_le (e : m.segment h = some g) (hi : g.len ≤ i.toNat) :
    memRead m h i = .error ⟨.outOfBounds, h, i.setWidth 33⟩ := by simp [memRead, e, hi]

/-- A segment bound to two handles reads alike under both, below its length. -/
theorem memRead_eq_of_segment {k : Word} (e' : m'.segment k = some g) (e : m.segment h = some g)
    (hi : i.toNat < g.len) : memRead m' k i = memRead m h i :=
  (memRead_of_lt e' hi).trans (memRead_of_lt e hi).symm

theorem memWrite_of_not_live (e : m.segment h = none) (i v : Word) :
    memWrite m h i v = .error ⟨.invalidHandle, h, 0⟩ := by simp [memWrite, e]

theorem memWrite_of_lt (e : m.segment h = some g) (hi : i.toNat < g.len) (v : Word) :
    memWrite m h i v = .ok ⟨assocPut h.toNat (g.write i.toNat v) m.seg, m.free, m.next⟩ := by
  simp [memWrite, e, hi]

theorem memWrite_of_len_le (e : m.segment h = some g) (hi : g.len ≤ i.toNat) (v : Word) :
    memWrite m h i v = .error ⟨.outOfBounds, h, i.setWidth 33⟩ := by simp [memWrite, e, hi]

/-- A write rebinds its own handle alone. -/
theorem memWrite_segment_other (e : memWrite m h i v = .ok m') {h' : Word} (hne : h' ≠ h) :
    m'.segment h' = m.segment h' := by
  obtain ⟨g, -, -, rfl⟩ := memWrite_ok e
  exact m.segment_put_other _ _ _ hne

theorem memRead_memWrite_same (e : memWrite m h i v = .ok m') : memRead m' h i = .ok v := by
  obtain ⟨g, -, hi, rfl⟩ := memWrite_ok e
  rw [memRead_of_lt (m.segment_put_same h (g.write i.toNat v) _ _) hi, Segment.read_write_same]

/-- Every other word, of the same segment or of another, reads as before the write. -/
theorem memRead_memWrite_other (e : memWrite m h i v = .ok m') {h' i' : Word} (hne : (h', i') ≠ (h, i)) :
    memRead m' h' i' = memRead m h' i' := by
  by_cases hh : h' = h
  · subst hh
    have hi' : i'.toNat ≠ i.toNat := fun eq => hne (by rw [BitVec.eq_of_toNat_eq eq])
    obtain ⟨g, hg, -, rfl⟩ := memWrite_ok e
    simp [memRead, hg, Memory.segment_put_same, Segment.read_write_other g v hi']
  · exact memRead_congr (memWrite_segment_other e hh) i'

theorem memWrite_handles (e : memWrite m h i v = .ok m') : m'.free = m.free ∧ m'.next = m.next := by
  obtain ⟨g, -, -, rfl⟩ := memWrite_ok e
  exact ⟨rfl, rfl⟩

end

/-! #### Free, allocate, replace -/

section

variable {cfg : Config} {m m' : Memory} {h n : Word}

theorem memFree_of_refused (e : h = 0 ∨ m.segment h = none) :
    memFree h m = .error ⟨.invalidHandle, h, 0⟩ := if_pos e

theorem memFree_of_live (h0 : h ≠ 0) (e : m.segment h ≠ none) :
    memFree h m = .ok ⟨assocDrop h.toNat m.seg, m.free ++ [h], m.next⟩ := if_neg (not_or_intro h0 e)

theorem memFree_segment_same (e : memFree h m = .ok m') : m'.segment h = none := by
  obtain ⟨-, -, rfl⟩ := memFree_ok e
  exact m.segment_drop_same h _ _

theorem memFree_segment_other (e : memFree h m = .ok m') {h' : Word} (hne : h' ≠ h) :
    m'.segment h' = m.segment h' := by
  obtain ⟨-, -, rfl⟩ := memFree_ok e
  exact m.segment_drop_other _ _ hne

/-- Within the limits Allocate takes the last of a non-empty FREE (R42). -/
theorem memAlloc_of_free {l : List Word} (ha : Admitted cfg m.total n.toNat) (hf : m.free = l ++ [h]) :
    memAlloc cfg n m = .ok (h, ⟨assocPut h.toNat (Segment.zeros n.toNat) m.seg, l, m.next⟩) := by
  have hlimits := (admitted_iff _ _ _).mpr ha
  simp only [memAlloc, hlimits, if_true, chooseHandle, hf, List.getLast?_concat, List.dropLast_concat]

/-- Within the limits and with FREE empty, Allocate takes NEXT while there is one (R42). -/
theorem memAlloc_of_next (ha : Admitted cfg m.total n.toNat) (hf : m.free = []) (hn : m.next < 2 ^ 32) :
    ∃ h : Word, h.toNat = m.next ∧ memAlloc cfg n m =
      .ok (h, ⟨assocPut h.toNat (Segment.zeros n.toNat) m.seg, [], m.next + 1⟩) := by
  have hlimits := (admitted_iff _ _ _).mpr ha
  have hle : m.next ≤ 2 ^ 32 - 1 := by omega
  refine ⟨BitVec.ofNat 32 m.next, Nat.mod_eq_of_lt hn, ?_⟩
  simp only [memAlloc, hlimits, if_true, chooseHandle, hf, List.getLast?_nil, hle]

/-- Whichever handle Allocate takes, it is bound to n zeros. -/
theorem memAlloc_segment_same (e : memAlloc cfg n m = .ok (h, m')) :
    m'.segment h = some (Segment.zeros n.toNat) := by
  obtain ⟨-, ⟨l, -, rfl⟩ | ⟨-, -, -, rfl⟩⟩ := memAlloc_ok e
  · exact m.segment_put_same h _ _ _
  · exact m.segment_put_same h _ _ _

theorem memAlloc_segment_other (e : memAlloc cfg n m = .ok (h, m')) {h' : Word} (hne : h' ≠ h) :
    m'.segment h' = m.segment h' := by
  obtain ⟨-, ⟨l, -, rfl⟩ | ⟨-, -, -, rfl⟩⟩ := memAlloc_ok e
  · exact m.segment_put_other _ _ _ hne
  · exact m.segment_put_other _ _ _ hne

/-- A new segment reads 0 everywhere (R44). -/
theorem memRead_memAlloc (e : memAlloc cfg n m = .ok (h, m')) {i : Word} (hi : i.toNat < n.toNat) :
    memRead m' h i = .ok 0 :=
  memRead_of_lt (memAlloc_segment_same e) hi

/-- ReplaceProgram with a non-zero handle binds 0 to that handle's segment, which stays where it was. -/
theorem memReplace_segment_zero (h0 : h ≠ 0) (e : memReplace cfg h m = .ok m') :
    ∃ g, m.segment h = some g ∧ m'.segment 0 = some g := by
  obtain ⟨rfl, -⟩ | ⟨-, g, hg, -, rfl⟩ := memReplace_ok e
  · exact absurd rfl h0
  · exact ⟨g, hg, m.segment_put_same 0 g _ _⟩

theorem memReplace_segment_other (e : memReplace cfg h m = .ok m') {h' : Word} (hne : h' ≠ 0) :
    m'.segment h' = m.segment h' := by
  obtain ⟨-, rfl⟩ | ⟨-, g, -, -, rfl⟩ := memReplace_ok e
  · rfl
  · exact m.segment_put_other _ _ _ hne

end

/-! #### The requests' statements -/

/-- Settles O20: one rule of Read for each clause. -/
theorem readChecksHandleThenBounds : Obligations.ReadChecksHandleThenBounds := fun _ _ i =>
  ⟨fun e => memRead_of_not_live e i, fun g hg =>
    ⟨memRead_of_len_le hg, fun hi => ⟨g.read i.toNat, memRead_of_lt hg hi, g.words_getElem hi⟩⟩⟩

/-- Settles O21: Write's checks are Read's, and what it stores is read back at its own address alone. -/
theorem writeStoresOneWord : Obligations.WriteStoresOneWord := by
  intro m h i v
  refine ⟨fun e => memWrite_of_not_live e i v, fun g hg => ⟨fun hi => memWrite_of_len_le hg hi v, fun hi => ?_⟩⟩
  have e := memWrite_of_lt hg hi v
  exact ⟨_, e, memRead_memWrite_same e, fun _ _ => memRead_memWrite_other e, memWrite_handles e⟩

/-- Settles O22: the two outcomes of Free, and what the second leaves bound. -/
theorem freeUnbindsAndAppends : Obligations.FreeUnbindsAndAppends := by
  intro m h
  refine ⟨memFree_of_refused, fun h0 hlive => ?_⟩
  have e := memFree_of_live h0 hlive
  exact ⟨_, e, memFree_segment_same e, rfl, rfl, fun _ => memFree_segment_other e⟩

/-- Settles O23: a freed handle is not live, and an allocated one is bound to zeros. -/
theorem freedWordsAreGone : Obligations.FreedWordsAreGone := fun _ _ _ _ _ =>
  ⟨fun e => memRead_of_not_live (memFree_segment_same e), fun e _ => memRead_memAlloc e⟩

/-- Settles O27: a write rebinds its own handle alone, so segment 0 stays the copy and segment h the original. -/
theorem replacedProgramIsIndependent : Obligations.ReplacedProgramIsIndependent := by
  intro cfg m m' m'' h i v h0 e
  obtain ⟨g, hg, hg0⟩ := memReplace_segment_zero h0 e
  refine ⟨fun ew => ?_, fun ew j => ?_⟩
  · have kept : m''.segment 0 = m'.segment 0 := memWrite_segment_other ew h0.symm
    have copy : m''.segment 0 = some g := kept.trans hg0
    exact ⟨memRead_congr kept, g, hg, Memory.programLen_of_segment copy, fun j => memRead_eq_of_segment copy hg⟩
  · exact memRead_congr ((memWrite_segment_other ew h0).trans (memReplace_segment_other e h0)) j

/-! #### The fetch after load program -/

theorem fetch_of_lt {s : State} {g : Segment} (e : s.mem.segment 0 = some g) (hi : s.pc.toNat < g.len) :
    fetch s = .ok (g.read s.pc.toNat) := by simp only [fetch, e, hi, if_true]

theorem fetch_of_len_le {s : State} {g : Segment} (e : s.mem.segment 0 = some g) (hi : g.len ≤ s.pc.toNat) :
    fetch s = .error ⟨.outOfBounds, 0, s.pc⟩ := by simp only [fetch, e, Nat.not_lt.mpr hi, if_false]

/-- Settles O29: load program that took no fault completed, so segment 0 is the segment it names, and a fetch reads
segment 0. -/
theorem nextFetchSeesTheNewProgram : Obligations.NextFetchSeesTheNewProgram := by
  intro s t b c h0 e hstatus
  rcases exec_next e with ⟨f, -, rfl⟩ | ⟨m, em, rfl⟩
  · exact absurd rfl hstatus
  · obtain ⟨g, hg, hg0⟩ := memReplace_segment_zero h0 em
    refine ⟨g, hg, fun u hu => ?_⟩
    have hu0 : u.mem.segment 0 = some g := by rw [hu]; exact hg0
    exact ⟨fetch_of_lt hu0, fetch_of_len_le hu0⟩

/-! #### The alloc instruction -/

/-- alloc completes when Allocate answers a handle (R121). -/
theorem exec_alloc_of_memAlloc {b c : Reg} {s : State} {h : Word} {m : Memory} (hr : s.CanRead [c])
    (e : memAlloc s.config (s.reg c) s.mem = .ok (h, m)) :
    exec (.alloc b c) s = .next ((s.setMem m).setReg b h).advance := by
  simp only [exec, execAlloc, reading_of_canRead hr, e, orTrap]

/-- Whatever handle Allocate answered, alloc leaves it bound to zeros and every other segment as it was. -/
theorem memAlloc_zeroed {cfg : Config} {n h : Word} {m m' : Memory} (e : memAlloc cfg n m = .ok (h, m')) :
    (∃ g, m'.segment h = some g ∧ g.len = n.toNat ∧ ∀ i : Word, i.toNat < g.len → memRead m' h i = .ok 0) ∧
    ∀ h' i, h' ≠ h → memRead m' h' i = memRead m h' i :=
  ⟨⟨_, memAlloc_segment_same e, rfl, fun _ => memRead_memAlloc e⟩,
    fun _ i hne => memRead_congr (memAlloc_segment_other e hne) i⟩

/-- Settles O40: Allocate's two choices of a handle, each with the zeroed segment and the instruction's frame. -/
theorem allocMakesAZeroedSegment : Obligations.AllocMakesAZeroedSegment := by
  intro b c s hr hadm
  have frame (m : Memory) (h : Word) : SameRegsBut b s ((s.setMem m).setReg b h).advance := fun _ hne =>
    sameReg_setReg (s.setMem m) h hne
  refine ⟨fun l h hf => ?_, fun hf hn => ?_⟩
  · have e := memAlloc_of_free hadm hf
    obtain ⟨zeroed, others⟩ := memAlloc_zeroed e
    exact ⟨_, exec_alloc_of_memAlloc hr e, holds_setReg (s.setMem _) b h, zeroed, others, rfl, rfl, rfl,
      frame _ h, ⟨⟨rfl, rfl⟩, rfl⟩, ⟨rfl, rfl, rfl⟩⟩
  · obtain ⟨h, hnext, e⟩ := memAlloc_of_next hadm hf hn
    obtain ⟨zeroed, others⟩ := memAlloc_zeroed e
    obtain ⟨holds, written⟩ := holds_setReg (s.setMem _) b h
    refine ⟨_, exec_alloc_of_memAlloc hr e, written, ?_⟩
    rw [State.reg_advance, holds]
    exact ⟨hnext, zeroed, others, rfl, rfl, rfl, frame _ h, ⟨⟨rfl, rfl⟩, rfl⟩, ⟨rfl, rfl, rfl⟩⟩

/-! #### Reset with an image of whole words (70_reset_and_hazards.md R171) -/

/-- An image of 4·n bytes is n words. -/
theorem imageWords_of_length {n : Nat} {image : List Byte} (hlen : image.length = 4 * n) :
    ∃ ws, imageWords image = some ws ∧ ws.length = n := by
  induction image using imageWords.induct generalizing n with
  | case1 => exact ⟨[], rfl, by simp only [List.length_nil] at hlen ⊢; omega⟩
  | case2 b0 b1 b2 b3 rest ih =>
    simp only [List.length_cons] at hlen
    obtain ⟨ws, hws, hn⟩ := ih (n := n - 1) (by omega)
    exact ⟨wordOfBytes b0 b1 b2 b3 :: ws, by simp [imageWords, hws], by rw [List.length_cons]; omega⟩
  | case3 | case4 | case5 => simp only [List.length_cons, List.length_nil] at hlen; omega

/-- Word k of an image is made of the bytes 4k to 4k + 3, the first on top (R52). -/
theorem imageWords_getElem {image : List Byte} {ws : List Word} (hws : imageWords image = some ws) {k : Nat}
    {b0 b1 b2 b3 : Byte} (h0 : image[4 * k]? = some b0) (h1 : image[4 * k + 1]? = some b1)
    (h2 : image[4 * k + 2]? = some b2) (h3 : image[4 * k + 3]? = some b3) :
    ws[k]? = some (wordOfBytes b0 b1 b2 b3) := by
  induction image using imageWords.induct generalizing ws k with
  | case1 => simp at h0
  | case2 c0 c1 c2 c3 rest ih =>
    obtain ⟨ws', hws', rfl⟩ := Option.map_eq_some_iff.mp hws
    cases k with
    | zero => cases h0; cases h1; cases h2; cases h3; rfl
    | succ k => exact ih hws' h0 h1 h2 h3
  | case3 | case4 | case5 => cases hws

/-- An image within the limits boots to R171's state. -/
theorem boot_of_imageWords {cfg : Config} {image : List Byte} {ws : List Word} (hws : imageWords image = some ws)
    (hmax : ws.length ≤ cfg.maxSegmentWords) (hcap : ∀ k, cfg.heapCapacityWords = some k → ws.length ≤ k)
    (input : List Byte) (ended : Bool) :
    boot cfg image input ended = loadedState cfg ws input ended := by
  have hseg : fitsSegment cfg ws.length = true := decide_eq_true hmax
  simp [boot, hws, hseg, (fitsCapacity_iff _ _).mpr hcap]

theorem loadedState_segment_zero (cfg : Config) (ws : List Word) (input : List Byte) (ended : Bool) :
    (loadedState cfg ws input ended).mem.segment 0 = some (Segment.ofWords ws) := rfl

/-- The image is bound to handle 0, and no other handle is live. -/
theorem loadedState_live_iff (cfg : Config) (ws : List Word) (input : List Byte) (ended : Bool) (h : Word) :
    (loadedState cfg ws input ended).mem.live h ↔ h = 0 := by
  constructor
  · rintro ⟨g, hg⟩
    have hmem := mem_of_assocGet hg
    simp only [loadedState, List.mem_singleton, Prod.mk.injEq] at hmem
    exact BitVec.eq_of_toNat_eq hmem.1
  · rintro rfl
    exact ⟨_, loadedState_segment_zero cfg ws input ended⟩

/-- Reading word k of segment 0 gives word k of the image. -/
theorem memRead_loadedState (cfg : Config) {ws : List Word} (input : List Byte) (ended : Bool) {k w : Word}
    (hk : ws[k.toNat]? = some w) : memRead (loadedState cfg ws input ended).mem 0 k = .ok w := by
  have hlt : k.toNat < ws.length := (List.getElem?_eq_some_iff.mp hk).1
  rw [memRead_of_lt (loadedState_segment_zero cfg ws input ended) hlt, Segment.ofWords_read, hk]
  rfl

/-- After a boot under REG_RESET = ZERO every register holds 0 (R23). -/
theorem loadedState_holds {cfg : Config} (hz : cfg.regReset = .zero) (ws : List Word) (input : List Byte)
    (ended : Bool) (r : Reg) : (loadedState cfg ws input ended).Holds r 0 := by
  refine ⟨by cases r <;> rfl, ?_⟩
  simp [loadedState, hz, RegReset.valueless]

/-- After a boot under REG_RESET = UNWRITTEN none holds a value (R23). -/
theorem loadedState_unwritten {cfg : Config} (hu : cfg.regReset = .unwritten) (ws : List Word) (input : List Byte)
    (ended : Bool) (r : Reg) : r ∈ (loadedState cfg ws input ended).unwritten := by
  simp only [loadedState, hu, RegReset.valueless]
  cases r <;> decide

/-- Settles O50: the image is n words, so the boot is R171's state, and word k of segment 0 is the image's. -/
theorem bootLoadsTheImageBigEndian : Obligations.BootLoadsTheImageBigEndian := by
  intro cfg image input ended n hlen hmax _ hcap
  obtain ⟨ws, hws, rfl⟩ := imageWords_of_length hlen
  rw [boot_of_imageWords hws hmax hcap]
  refine ⟨rfl, rfl, rfl, rfl, fun hz => loadedState_holds hz ws input ended,
    fun hu => loadedState_unwritten hu ws input ended, rfl, loadedState_live_iff cfg ws input ended, rfl, rfl, ?_⟩
  intro k b0 b1 b2 b3 _ h0 h1 h2 h3
  exact ⟨_, memRead_loadedState cfg input ended (imageWords_getElem hws h0 h1 h2 h3), wordOfBytes_toNat b0 b1 b2 b3⟩

end Sys2Proof.Machine

/-! ### The decoder by the operation code and the immediate (30_encoding.md R71, R74) -/

namespace Sys2Proof

/-- What a word decodes to has the word's own operation code (R71, R76). -/
@[simp] theorem opcode_decode (w : Word) : (decode w).opcode = opcode w := by
  have hlt := (opcode w).isLt
  refine BitVec.eq_of_toNat_eq ?_
  unfold decode
  split
  case h_16 => -- the last arm: a code of four bits that is none of 0 to 14 is 15
    show 15 = (opcode w).toNat
    simp only [imp_false] at *
    omega
  all_goals exact Eq.symm ‹_›

theorem opcode_decode_toNat (w : Word) : (decode w).opcode.toNat = w.toNat / 2 ^ 28 := by
  rw [opcode_decode, opcode_toNat]

theorem Instr.opcode_eq_14_iff (i : Instr) : i.opcode.toNat = 14 ↔ i = .reserved14 := by
  cases i <;> simp [Instr.opcode]

theorem Instr.opcode_eq_15_iff (i : Instr) : i.opcode.toNat = 15 ↔ i = .reserved15 := by
  cases i <;> simp [Instr.opcode]

/-- Operation code 13 is li, with its selector and its immediate read from the fields of format L (R73, R74). -/
theorem decode_of_opcode_13 {w : Word} (h : w.toNat / 2 ^ 28 = 13) :
    decode w = .li (selector w selA13Lo) ((immField w).setWidth 32) := by
  unfold decode
  rw [opcode_toNat, h]
  rfl

/-- The immediate field zero-extended is the word mod 2^25 (R74). -/
theorem immField_setWidth_toNat (w : Word) : ((immField w).setWidth 32).toNat = w.toNat % 2 ^ 25 := by
  rw [BitVec.toNat_setWidth_of_le (by decide), immField, BitVec.extractLsb'_toNat, Nat.shiftRight_zero]

/-- Settles O4: decoding keeps the operation code, and 14 and 15 are the codes of the two undefined rows alone. -/
theorem opcodeIsTheTopFourBits : Obligations.OpcodeIsTheTopFourBits := by
  intro w
  rw [← opcode_decode_toNat w]
  exact ⟨rfl, (decode w).opcode_eq_14_iff, (decode w).opcode_eq_15_iff⟩

/-- Settles O5: code 13 decodes to li with the zero-extended field, and an instruction li has code 13. -/
theorem immediateIsZeroExtended : Obligations.ImmediateIsZeroExtended := by
  intro w
  constructor
  · intro h13
    have hvalue := immField_setWidth_toNat w
    exact ⟨_, _, decode_of_opcode_13 h13, hvalue, by omega⟩
  · intro a value hli
    rw [← opcode_decode_toNat w, hli]
    rfl

end Sys2Proof

/-! ### What a step does with the fetched word, and when it waits (40_execution_cycle.md R91 to R95)

Which outcome a step gives, said by STATUS, the fetch and the input channel; and what an instruction that completes
writes. -/

namespace Sys2Proof

/-! #### The decoder reads back what the encoder writes -/

/-- The immediate field of an in-range immediate is all of it (R74, R82). -/
theorem immField_setWidth_of_inRange {value : Word} (h : immInRange value) :
    (immField value).setWidth 32 = value := by
  have hlt : value.toNat < 2 ^ 25 := Nat.lt_succ_of_le h
  refine BitVec.eq_of_toNat_eq ?_
  rw [immField_setWidth_toNat, Nat.mod_eq_of_lt hlt]

/-- The three fields of the word that li is encoded as (R73, R82). -/
theorem encode_li_fields {value : Word} (h : immInRange value) (a : Reg) :
    (encode (.li a value)).toNat / 2 ^ 28 = 13 ∧ selector (encode (.li a value)) selA13Lo = a ∧
    immField (encode (.li a value)) = immField value := by
  have op : value.extractLsb' opLo 4 = 0 := by
    ext k hk
    simp [opLo, imm_high_bits h (show 25 ≤ 28 + k by omega)]
  have sel : value.extractLsb' selA13Lo 3 = 0 := by
    ext k hk
    simp [selA13Lo, imm_high_bits h (show 25 ≤ 25 + k by omega)]
  obtain ⟨opA, selA, immA⟩ := placeReg_A13 a
  refine ⟨?_, ?_, ?_⟩
  · rw [← opcode_toNat]
    simp only [opcode, encode, extract_or, opA, op]
    rfl
  · simp only [selector, encode, extract_or, selA, sel]
    cases a <;> rfl
  · simp only [immField, encode, extract_or, immA]
    exact BitVec.zero_or

/-- A three-selector word decodes to what its operation code makes of the selectors placed in it (R72). -/
theorem decode_stdWord {base : Word} {make : Reg → Reg → Reg → Instr}
    (row : ∀ w, opcode w = base.extractLsb' opLo 4 →
      decode w = make (selector w selALo) (selector w selBLo) (selector w selCLo))
    (hA : base.extractLsb' selALo 3 = 0) (hB : base.extractLsb' selBLo 3 = 0) (hC : base.extractLsb' selCLo 3 = 0)
    (a b c : Reg) : decode (stdWord base a b c) = make a b c := by
  rw [row _ (stdWord_opcode base a b c), stdWord_A hA, stdWord_B hB, stdWord_C hC]

/-- R81 after R82: a well-formed instruction's word decodes to the instruction. -/
theorem decode_encode {i : Instr} (h : i.wellFormed = true) : decode (encode i) = i := by
  cases i
  case cmov a b c | aread a b c | awrite a b c | add a b c | mul a b c | div a b c | nand a b c =>
    refine decode_stdWord (fun w op => ?_) rfl rfl rfl a b c
    simp only [decode, op]
    rfl
  case alloc b c | loadprog b c => cases b <;> cases c <;> rfl
  case free c | out c | inp c => cases c <;> rfl
  case halt | reserved14 | reserved15 => rfl
  case li a value =>
    have hv : immInRange value := of_decide_eq_true h
    obtain ⟨op, sel, imm⟩ := encode_li_fields hv a
    rw [decode_of_opcode_13 op, sel, imm, immField_setWidth_of_inRange hv]

end Sys2Proof

namespace Sys2Proof.Machine

/-! #### The step by STATUS and the fetch -/

theorem step_of_fetch {s : State} {w : Word} (hs : s.status = .running) (hw : fetch s = .ok w) :
    step s = exec (decode w) s := by simp only [step, hs, hw]

theorem step_of_fetch_error {s : State} {f : FaultInfo} (hs : s.status = .running) (hf : fetch s = .error f) :
    step s = .next (s.raise f) := by simp only [step, hs, hf, trap]

theorem step_of_halted {s : State} (hs : s.status = .halted) : step s = .fault .halted := by simp only [step, hs]

theorem step_of_faulted {s : State} (hs : s.status = .faulted) : step s = .fault .faulted := by simp only [step, hs]

/-- Settles O8: the fetched word's decoding is executed, and a well-formed instruction's word decodes to it. -/
theorem stepRunsTheDecodedInstruction : Obligations.StepRunsTheDecodedInstruction := by
  refine ⟨fun s w => step_of_fetch, fun s i hi hs hw => ?_⟩
  rw [step_of_fetch hs hw, decode_encode hi]

/-- Settles O9: the step by STATUS. -/
theorem stepOnlyWhileRunning : Obligations.StepOnlyWhileRunning :=
  ⟨fun _ _ e => (step_next e).1, fun _ => step_of_halted, fun _ => step_of_faulted⟩

/-! #### The input instruction by InByte's answer -/

theorem exec_inp_of_byte {s : State} {b : Byte} {rest : List Byte} (hi : s.input = b :: rest) (c : Reg) :
    exec (.inp c) s = .next (s.consumeInput.setReg c (b.setWidth 32)).advance := by
  simp only [exec, execInp, inByte, hi]

theorem exec_inp_of_ended {s : State} (hi : s.input = []) (he : s.inputEnded = true) (c : Reg) :
    exec (.inp c) s = .next (s.setReg c eofSentinel).advance := by
  simp only [exec, execInp, inByte, hi, he, if_true]

theorem exec_inp_of_pending {s : State} (hi : s.input = []) (he : s.inputEnded = false) (c : Reg) :
    exec (.inp c) s = .fault .inputWait := by
  simp [exec, execInp, inByte, hi, he]

/-- A byte delivered to an open stream is the last of INPUT (R175). -/
theorem State.hostByte_input {s : State} (he : s.inputEnded = false) (b : Byte) :
    (s.hostByte b).input = s.input ++ [b] := by
  simp [State.hostByte, he]

/-- Settles O11: before the host's answer the channel is pending, after it a byte or the end is there to be read. -/
theorem hostAnswerEndsTheWait : Obligations.HostAnswerEndsTheWait := by
  intro s c hi he
  refine ⟨exec_inp_of_pending hi he c, fun b => ?_, ?_⟩
  · have delivered : (s.hostByte b).input = [b] := by rw [State.hostByte_input he, hi, List.nil_append]
    refine ⟨_, exec_inp_of_byte delivered c, holds_setReg (s.hostByte b).consumeInput c _, ?_⟩
    simp [delivered]
  · exact ⟨_, exec_inp_of_ended (s := s.hostEnd) hi rfl c, holds_setReg s.hostEnd c _, rfl⟩

/-! #### The step that waits -/

theorem step_not_refused (s : State) (r : Refusal) : step s ≠ .refused r := by
  unfold step
  split
  · split
    · exact exec_not_refused _ _ _
    · nofun
  · nofun
  · nofun

/-- A running machine stops only at an input instruction that the channel has no answer for (R95). -/
theorem step_fault_of_running {s : State} {e : Fault} (hs : s.status = .running) (h : step s = .fault e) :
    (∃ w c, fetch s = .ok w ∧ decode w = .inp c) ∧ s.input = [] ∧ s.inputEnded = false := by
  cases hw : fetch s with
  | ok w =>
    rw [step_of_fetch hs hw] at h
    obtain ⟨-, hi, he, c, hc⟩ := exec_fault h
    exact ⟨⟨w, c, rfl, hc⟩, hi, he⟩
  | error f =>
    rw [step_of_fetch_error hs hw] at h
    cases h

/-- Settles O10: an input with no answer waits; and a step that answers no next state, being no refusal, is one. -/
theorem onlyAnInputStepWaits : Obligations.OnlyAnInputStepWaits := by
  intro s hs
  have waits : (∃ w c, fetch s = .ok w ∧ decode w = .inp c) → s.input = [] → s.inputEnded = false →
      step s = .fault .inputWait := by
    rintro ⟨w, c, hw, hc⟩ hi he
    rw [step_of_fetch hs hw, hc, exec_inp_of_pending hi he]
  refine ⟨⟨?_, fun hwait => ?_⟩, waits⟩
  · rintro ⟨t, ht⟩ ⟨hinp, hi, he⟩
    rw [waits hinp hi he] at ht
    cases ht
  · cases h : step s with
    | next t => exact ⟨t, rfl⟩
    | fault e => exact absurd (step_fault_of_running hs h) hwait
    | refused r => exact absurd h (step_not_refused s r)

/-! #### What an instruction that completes writes -/

/-- An instruction that leaves the machine not FAULTED took no fault. -/
theorem completed_of_not_faulted {i : Instr} {s t : State} (e : exec i s = .next t) (ht : t.status ≠ .faulted) :
    Completed i s t := by
  rcases exec_next e with ⟨f, -, rfl⟩ | h
  · exact absurd rfl ht
  · exact h

/-- Settles O16: the instruction completed, and each part of what completing changes has its own lemma. -/
theorem instructionMakesAtMostOneOfEachWrite : Obligations.InstructionMakesAtMostOneOfEachWrite := by
  intro i s t e _ ht
  have h : Completed i s t := completed_of_not_faulted e ht
  obtain ⟨hfault, hconfig⟩ := completed_control h
  refine ⟨fun r => completed_regs h, completed_mem h, completed_io h, hfault, hconfig, ?_⟩
  rcases completed_status h with halted | ⟨-, same⟩
  · exact .inr halted
  · exact .inl same

end Sys2Proof.Machine

/-! ### Conditional move, array read and array write (41_register_and_array.md R100 to R102)

Each of the three reads its operands; cmov then goes on whatever they are, and the two array instructions make one
request of the memory controller, whose answer decides between the instruction's effect and a fault. -/

namespace Sys2Proof.Machine

/-! #### An instruction that reads its operands and makes one request -/

section

variable {α : Type} {rs : List Reg} {s : State} {q : Except FaultInfo α}

/-- A request that is answered lets the instruction go on (R50). -/
theorem reading_orTrap_of_ok (hr : s.CanRead rs) {v : α} (e : q = .ok v) (k : α → State) :
    reading rs s (orTrap s q k) = .next (k v) := by
  rw [reading_of_canRead hr, e, orTrap]

/-- A request that answers a fault takes it, for the instruction word just fetched (R50, R152). -/
theorem reading_orTrap_tookFault (hr : s.CanRead rs) {kind : FaultKind} {h : Word} {i : Pc}
    (e : q = .error ⟨kind, h, i⟩) {w : Word} (hw : fetch s = .ok w) (k : α → State) :
    ∃ t, reading rs s (orTrap s q k) = .next t ∧ TookFault kind h i w s t := by
  rw [reading_of_canRead hr, e, orTrap]
  exact ⟨_, rfl, tookFault_of_fetch hw kind h i⟩

end

/-- Writing one register and going on to the next word writes nothing else. -/
theorem setReg_advance_frame (s : State) (d : Reg) (v : Word) :
    SameRegsBut d s (s.setReg d v).advance ∧ SameMemory s (s.setReg d v).advance ∧
      SameIo s (s.setReg d v).advance ∧ SameControl s (s.setReg d v).advance :=
  ⟨fun _ hne => sameReg_setReg s v hne, ⟨fun _ _ => rfl, rfl⟩, ⟨⟨rfl, rfl⟩, rfl⟩, ⟨rfl, rfl, rfl⟩⟩

/-! #### cmov by its condition -/

theorem exec_cmov_of_ne_zero {b c : Reg} {s : State} (hr : s.CanRead [b, c]) (hc : s.reg c ≠ 0) (a : Reg) :
    exec (.cmov a b c) s = .next (s.setReg a (s.reg b)).advance := by
  have cond : nonZero (s.reg c) = true := bne_iff_ne.mpr hc
  simp only [exec, execCmov, reading_of_canRead hr, cond, if_true]

theorem exec_cmov_of_zero {b c : Reg} {s : State} (hr : s.CanRead [b, c]) (hc : s.reg c = 0) (a : Reg) :
    exec (.cmov a b c) s = .next s.advance := by
  simp [exec, execCmov, reading_of_canRead hr, nonZero, hc]

/-- Settles O31: with a condition of 0 only pc moves, with any other the register is written too. -/
theorem cmovMovesOnNonZero : Obligations.CmovMovesOnNonZero := by
  intro a b c s hr
  by_cases hc : s.reg c = 0
  · exact ⟨_, exec_cmov_of_zero hr hc a, fun hne => absurd hc hne, fun _ => ⟨rfl, Iff.rfl⟩, rfl,
      fun _ _ => ⟨rfl, Iff.rfl⟩, ⟨fun _ _ => rfl, rfl⟩, ⟨⟨rfl, rfl⟩, rfl⟩, ⟨rfl, rfl, rfl⟩⟩
  · exact ⟨_, exec_cmov_of_ne_zero hr hc a, fun _ => holds_setReg s a _, fun hz => absurd hz hc, rfl,
      setReg_advance_frame s a _⟩

/-! #### aread and awrite by the controller's answer -/

/-- Settles O32: Read answers by liveness and bounds, and aread writes the word or takes the fault. -/
theorem areadLoadsOrFaults : Obligations.AreadLoadsOrFaults := by
  intro a b c s hr
  refine ⟨fun g hg hi => ?_, fun w hw hg => ?_, fun w g hw hg hi => ?_⟩
  · exact ⟨_, reading_orTrap_of_ok hr (memRead_of_lt hg hi) _, holds_setReg s a _, rfl,
      setReg_advance_frame s a _⟩
  · exact reading_orTrap_tookFault hr (memRead_of_not_live hg _) hw _
  · exact reading_orTrap_tookFault hr (memRead_of_len_le hg hi) hw _

/-- Settles O33: Write answers by the same checks, and what it stores is read back at its own address alone. -/
theorem awriteStoresOrFaults : Obligations.AwriteStoresOrFaults := by
  intro a b c s hr
  refine ⟨fun g hg hi => ?_, fun w hw hg => ?_, fun w g hw hg hi => ?_⟩
  · have e := memWrite_of_lt hg hi (s.reg c)
    obtain ⟨hfree, hnext⟩ := memWrite_handles e
    exact ⟨_, reading_orTrap_of_ok hr e _, memRead_memWrite_same e, fun _ _ => memRead_memWrite_other e,
      ⟨hfree, hnext⟩, rfl, fun _ => ⟨rfl, Iff.rfl⟩, ⟨⟨rfl, rfl⟩, rfl⟩, ⟨rfl, rfl, rfl⟩⟩
  · exact reading_orTrap_tookFault hr (memWrite_of_not_live hg _ _) hw _
  · exact reading_orTrap_tookFault hr (memWrite_of_len_le hg hi _) hw _

end Sys2Proof.Machine

/-! ### Addition, multiplication, division and NAND (42_alu.md R110 to R113)

Each of the four reads its operands and writes one register; what it writes is said once for each ALU function, as
arithmetic on the operands' values, and the frame is that of any register write. -/

namespace Sys2Proof.Machine

/-! #### The ALU functions on the operands' values -/

@[simp] theorem toNat_aluAdd (x y : Word) : (aluAdd x y).toNat = (x.toNat + y.toNat) % 2 ^ 32 := by
  rw [aluAdd, BitVec.toNat_ofNat, Nat.mod_mod]

@[simp] theorem toNat_aluMul (x y : Word) : (aluMul x y).toNat = (x.toNat * y.toNat) % 2 ^ 32 := by
  rw [aluMul, BitVec.toNat_ofNat, Nat.mod_mod]

theorem aluDiv_of_zero (x : Word) {y : Word} (hy : y = 0) : aluDiv x y = .error ⟨.divisionByZero, 0, 0⟩ :=
  if_pos hy

/-- The floor is `BitVec`'s own unsigned division: a quotient is never too large for a word. -/
theorem aluDiv_of_ne_zero (x : Word) {y : Word} (hy : y ≠ 0) : aluDiv x y = .ok (x / y) :=
  if_neg hy |>.trans (congrArg Except.ok (BitVec.udiv_def).symm)

theorem getLsbD_aluNand (x y : Word) {k : Nat} (hk : k < 32) :
    (aluNand x y).getLsbD k = !(x.getLsbD k && y.getLsbD k) := by
  rw [aluNand, BitVec.getLsbD_not, BitVec.getLsbD_and, decide_eq_true hk, Bool.true_and]

/-! #### An instruction that writes its one register -/

/-- Writing a register leaves it holding the value, moves pc on by 1 and keeps all else: whatever is true of the
value written is true of the register afterwards. -/
theorem setReg_advance_writes (s : State) (d : Reg) {v : Word} (P : Word → Prop) (hv : P v) :
    let t := (s.setReg d v).advance
    d ∉ t.unwritten ∧ P (t.reg d) ∧ t.pc = s.pc + 1 ∧
      SameRegsBut d s t ∧ SameMemory s t ∧ SameIo s t ∧ SameControl s t := by
  obtain ⟨hval, hwritten⟩ := holds_setReg s d v
  exact ⟨hwritten, by rwa [State.reg_advance, hval], rfl, setReg_advance_frame s d v⟩

/-- Settles O34: add writes the sum modulo 2^32. -/
theorem addIsModulo : Obligations.AddIsModulo := fun _ b c s hr =>
  ⟨_, reading_of_canRead hr, setReg_advance_writes s _
    (fun x => x.toNat = ((s.reg b).toNat + (s.reg c).toNat) % 2 ^ 32) (toNat_aluAdd _ _)⟩

/-- Settles O35: mul writes the product modulo 2^32. -/
theorem mulIsModulo : Obligations.MulIsModulo := fun _ b c s hr =>
  ⟨_, reading_of_canRead hr, setReg_advance_writes s _
    (fun x => x.toNat = ((s.reg b).toNat * (s.reg c).toNat) % 2 ^ 32) (toNat_aluMul _ _)⟩

/-- Settles O36: the divisor decides between writing the quotient and the fault. -/
theorem divIsUnsignedFloorOrFaults : Obligations.DivIsUnsignedFloorOrFaults := by
  intro a b c s hr
  refine ⟨fun hc => ?_, fun w hw hc => ?_⟩
  · exact ⟨_, reading_orTrap_of_ok hr (aluDiv_of_ne_zero _ hc) _, setReg_advance_writes s a
      (fun x => x.toNat = (s.reg b).toNat / (s.reg c).toNat) BitVec.toNat_udiv⟩
  · exact reading_orTrap_tookFault hr (aluDiv_of_zero _ hc) hw _

/-- Settles O37: nand writes the NAND of the operands, bit by bit. -/
theorem nandIsBitwise : Obligations.NandIsBitwise := fun _ b c s hr =>
  ⟨_, reading_of_canRead hr, setReg_advance_writes s _
    (fun x => ∀ k, k < 32 → x.getLsbD k = !((s.reg b).getLsbD k && (s.reg c).getLsbD k))
    fun _ => getLsbD_aluNand _ _⟩

end Sys2Proof.Machine

/-! ### Free (43_halt_and_heap.md R122)

free reads its handle and makes one request; which answer it gets is Free's own check (R45), and the instruction adds
the move of pc and nothing else. -/

namespace Sys2Proof.Machine

/-- Taking the memory controller's new state and going on to the next word touches memory and pc alone. -/
theorem setMem_advance_frame (s : State) (m : Memory) :
    let t := (s.setMem m).advance
    t.pc = s.pc + 1 ∧ SameRegs s t ∧ SameIo s t ∧ SameControl s t :=
  ⟨rfl, fun _ => ⟨rfl, Iff.rfl⟩, ⟨⟨rfl, rfl⟩, rfl⟩, ⟨rfl, rfl, rfl⟩⟩

/-- Settles O42: Free unbinds a live non-zero handle and no other, and refuses handle 0 and a handle not live. -/
theorem freeUnbindsOrFaults : Obligations.FreeUnbindsOrFaults := by
  intro c s hr
  refine ⟨fun g h0 hg => ?_, fun w hw hrefused => ?_⟩
  · have hlive : s.mem.segment (s.reg c) ≠ none := Option.ne_none_iff_exists'.mpr ⟨g, hg⟩
    have e := memFree_of_live h0 hlive
    exact ⟨_, reading_orTrap_of_ok hr e _, memFree_segment_same e, rfl, rfl,
      fun _ i hne => memRead_congr (memFree_segment_other e hne) i, setMem_advance_frame s _⟩
  · exact reading_orTrap_tookFault hr (memFree_of_refused hrefused) hw _

end Sys2Proof.Machine

/-! ### Load immediate (45_program_control.md R141) -/

namespace Sys2Proof.Machine

/-- li reads no register and makes no request: it is a register write and the move of pc, on every path. -/
theorem exec_li (a : Reg) (value : Word) (s : State) :
    exec (.li a value) s = .next (s.setReg a value).advance := rfl

/-- Settles O47: li writes the immediate, and its frame is that of any register write. -/
theorem liLoadsTheImmediate : Obligations.LiLoadsTheImmediate := fun a value s =>
  ⟨_, exec_li a value s, holds_setReg s a value, rfl, setReg_advance_frame s a value⟩

end Sys2Proof.Machine

/-! ### The undefined operation codes (60_exceptions.md R151)

Each of the two undefined instructions is a fatal error and nothing else; a word whose top four bits are 14 or 15
decodes to one of them, by the operation code alone. -/

namespace Sys2Proof.Machine

theorem exec_reserved14 (s : State) : exec .reserved14 s = .next (s.raise ⟨.unknownOperation, 0, 0⟩) := rfl

theorem exec_reserved15 (s : State) : exec .reserved15 s = .next (s.raise ⟨.unknownOperation, 0, 0⟩) := rfl

/-- R77: the other 28 bits do not matter. -/
theorem decode_undefined {w : Word} (h : 14 ≤ w.toNat / 2 ^ 28) :
    decode w = .reserved14 ∨ decode w = .reserved15 := by
  obtain ⟨-, h14, h15⟩ := opcodeIsTheTopFourBits w
  have hlt : w.toNat < 2 ^ 32 := w.isLt
  rw [← h14, ← h15]
  omega

/-- Settles O48: both undefined instructions raise the fault, and a step on such a word runs one of them. -/
theorem undefinedCodesRaiseUnknownOperation : Obligations.UndefinedCodesRaiseUnknownOperation := by
  intro s w hw
  have took : TookFault .unknownOperation 0 0 w s (s.raise ⟨.unknownOperation, 0, 0⟩) := tookFault_of_fetch hw _ _ _
  refine ⟨⟨_, exec_reserved14 s, took⟩, ⟨_, exec_reserved15 s, took⟩, fun hs hcode => ⟨_, ?_, took⟩⟩
  rw [step_of_fetch hs hw]
  rcases decode_undefined hcode with h | h <;> rw [h]
  · exact exec_reserved14 s
  · exact exec_reserved15 s

end Sys2Proof.Machine

/-! ### Encoding and decoding whole words (30_encoding.md R71 to R82)

A field read from a word and placed again is the word masked to that field. So the fields that the decoder reads and
the encoder places make up the word masked to the bits its instruction uses. -/

namespace Sys2Proof

/-- Settles O1: the decoder reads back what the encoder writes. -/
theorem decodeOfEncodeIsIdentity : Obligations.DecodeOfEncodeIsIdentity := fun _ => decode_encode

/-- Settles O6: the immediate is the one operand with a range, and the decoder's is in it. -/
theorem everyWordDecodesWellFormed : Obligations.EveryWordDecodesWellFormed := by
  intro w
  cases h : decode w
  case li a value =>
    obtain ⟨imm, isLi⟩ := immediateIsZeroExtended w
    obtain ⟨a', value', h', -, hle⟩ := imm (isLi a value h)
    obtain ⟨-, rfl⟩ := Instr.li.inj (h.symm.trans h')
    exact decide_eq_true hle
  all_goals rfl

/-- Settles O7: the decoder evaluated on each of the words. -/
theorem testVectorWordsDecode : Obligations.TestVectorWordsDecode := by
  unfold Obligations.TestVectorWordsDecode
  decide

/-! #### A field in its place -/

/-- A field placed where it was read is the word masked to the field's n bits. -/
theorem extract_placed (w : Word) (lo n : Nat) :
    (w.extractLsb' lo n).setWidth 32 <<< lo = w &&& (BitVec.allOnes n).setWidth 32 <<< lo := by
  refine BitVec.eq_of_getLsbD_eq fun k hk => ?_
  by_cases hlo : k < lo
  · simp [hlo]
  · have hin : lo + (k - lo) = k := by omega
    simp [hk, hlo, hin, Bool.and_comm]

theorem placeReg_selector_eq_and (w : Word) (lo : Nat) : placeReg (selector w lo) lo = w &&& 7 <<< lo :=
  (placeReg_selector w lo).trans (extract_placed w lo 3)

theorem immField_setWidth_eq_and (w : Word) : (immField w).setWidth 32 = w &&& 0x01FFFFFF :=
  (BitVec.shiftLeft_zero _).symm.trans (extract_placed w 0 25)

/-- The four top bits of a word are its operation code in its place (R71). -/
theorem and_opcodeBits {w : Word} {k : Nat} (h : (opcode w).toNat = k) :
    w &&& 0xF0000000 = BitVec.ofNat 32 (k * 2 ^ 28) := by
  calc w &&& 0xF0000000 = (opcode w).setWidth 32 <<< 28 := (extract_placed w opLo 4).symm
    _ = BitVec.ofNat 32 (k * 2 ^ 28) := by
      refine BitVec.eq_of_toNat_eq ?_
      simp [Nat.shiftLeft_eq, h]

/-! #### The encoder on the fields of a word, by the selectors it places -/

section

variable {w base : Word} (h : w &&& 0xF0000000 = base)
include h

theorem encode_selector_C : base ||| placeReg (selector w selCLo) selCLo = w &&& 0xF0000007 := by
  rw [← h, placeReg_selector_eq_and, ← BitVec.and_or_distrib_left]
  rfl

theorem encode_selectors_BC :
    base ||| placeReg (selector w selBLo) selBLo ||| placeReg (selector w selCLo) selCLo = w &&& 0xF000003F := by
  rw [← h, placeReg_selector_eq_and, placeReg_selector_eq_and, ← BitVec.and_or_distrib_left,
    ← BitVec.and_or_distrib_left]
  rfl

theorem stdWord_selectors :
    stdWord base (selector w selALo) (selector w selBLo) (selector w selCLo) = w &&& 0xF00001FF := by
  rw [stdWord, ← h, placeReg_selector_eq_and, placeReg_selector_eq_and, placeReg_selector_eq_and,
    ← BitVec.and_or_distrib_left, ← BitVec.and_or_distrib_left, ← BitVec.and_or_distrib_left]
  rfl

theorem encode_fields_L :
    base ||| placeReg (selector w selA13Lo) selA13Lo ||| (immField w).setWidth 32 = w &&& 0xFFFFFFFF := by
  rw [← h, placeReg_selector_eq_and, immField_setWidth_eq_and, ← BitVec.and_or_distrib_left,
    ← BitVec.and_or_distrib_left]
  rfl

end

/-- Settles O2: by the operation code, the fields placed again are the word masked to the bits they came from. -/
theorem encodeOfDecodeClearsIgnoredBits : Obligations.EncodeOfDecodeClearsIgnoredBits := by
  intro w
  unfold decode
  split
  case h_1 h | h_2 h | h_3 h | h_4 h | h_5 h | h_6 h | h_7 h => exact stdWord_selectors (and_opcodeBits h)
  case h_8 h | h_15 h => exact (and_opcodeBits h).symm
  case h_9 h | h_13 h => exact encode_selectors_BC (and_opcodeBits h)
  case h_10 h | h_11 h | h_12 h => exact encode_selector_C (and_opcodeBits h)
  case h_14 h => exact encode_fields_L (and_opcodeBits h)
  case h_16 => -- the last arm: a code of four bits that is none of 0 to 14 is 15
    have h15 : (opcode w).toNat = 15 := by
      have hlt := (opcode w).isLt
      simp only [imp_false] at *
      omega
    exact (and_opcodeBits h15).symm

/-! #### Words that agree on the used bits -/

/-- `usedBits` by the operation code alone. -/
def usedBitsOfOpcode (k : BitVec 4) : Word :=
  if k ≤ 6 then 0xF00001FF
  else if k = 8 ∨ k = 12 then 0xF000003F
  else if k = 9 ∨ k = 10 ∨ k = 11 then 0xF0000007
  else if k = 13 then 0xFFFFFFFF
  else 0xF0000000

theorem usedBits_eq_usedBitsOfOpcode (i : Instr) : usedBits i = usedBitsOfOpcode i.opcode := by
  cases i <;> rfl

/-- Every instruction uses the operation code's four bits (R71). -/
theorem opcode_and_usedBits (w : Word) (i : Instr) : opcode (w &&& usedBits i) = opcode w := by
  have hop : ∀ k, (usedBitsOfOpcode k).extractLsb' opLo 4 = BitVec.allOnes 4 := by decide
  rw [opcode, BitVec.extractLsb'_and, usedBits_eq_usedBitsOfOpcode, hop, BitVec.and_allOnes, opcode]

/-- Settles O3: words that agree on the used bits have the same operation code, hence the same used bits; so their
instructions are encoded alike, and the decoder gives back what was encoded. -/
theorem ignoredBitsDoNotChangeDecoding : Obligations.IgnoredBitsDoNotChangeDecoding := by
  intro w v h
  have hop : opcode v = opcode w := by
    rw [← opcode_and_usedBits v (decode w), ← h, opcode_and_usedBits]
  have hused : usedBits (decode v) = usedBits (decode w) := by
    simp only [usedBits_eq_usedBitsOfOpcode, opcode_decode, hop]
  have hencode : encode (decode v) = encode (decode w) := by
    rw [encodeOfDecodeClearsIgnoredBits, encodeOfDecodeClearsIgnoredBits, hused, h]
  rw [← decode_encode (everyWordDecodesWellFormed v), hencode, decode_encode (everyWordDecodesWellFormed w)]

/-! #### The fields as numbers -/

/-- The register that the three bits from `lo` up number (R75). -/
theorem selector_eq_of_bits {w : Word} {lo : Nat} {r : Reg} (h : r.bits.toNat = w.toNat / 2 ^ lo % 8) :
    selector w lo = r := by
  have hbits : w.extractLsb' lo 3 = r.bits := by
    refine BitVec.eq_of_toNat_eq ?_
    rw [h, BitVec.extractLsb'_toNat, Nat.shiftRight_eq_div_pow]
  rw [selector, hbits, Reg.ofBits_bits]

/-- Settles O53: each code picks its arm of the decoder, whose selectors are the registers numbered. -/
theorem everyWordDecodesByItsFields : Obligations.EveryWordDecodesByItsFields := by
  intro w a b c d ha hb hc hd
  have hA : selector w selALo = a := selector_eq_of_bits ha
  have hB : selector w selBLo = b := selector_eq_of_bits hb
  have hC : selector w selCLo = c := selector_eq_of_bits (by simpa [selCLo] using hc)
  have hD : selector w selA13Lo = d := selector_eq_of_bits hd
  have himm : (immField w).setWidth 32 = BitVec.ofNat 32 (w.toNat % 2 ^ 25) := by
    rw [← immField_setWidth_toNat, BitVec.ofNat_toNat, BitVec.setWidth_eq]
  simp only [← opcode_toNat]
  refine ⟨?_, ?_, ?_, ?_, ?_, ?_, ?_, ?_, ?_, ?_, ?_, ?_, ?_, ?_, ?_, ?_⟩
  all_goals
    intro hop
    simp only [decode, hop, hA, hB, hC, hD, himm]

end Sys2Proof

/-! ### The memory controller's requests keep I1 to I7 (20_memory.md R40 to R48)

Every request that changes memory binds one handle to a segment or unbinds one. What a binding and an unbinding do to
TOTAL and to the invariant is said once for each, and each request is one of the two. -/

namespace Sys2Proof.Machine

section

variable {cfg : Config} {m m' : Memory} {h k n i v : Word} {g u : Segment} {fr : List Word} {next : Nat}

/-! #### TOTAL through a binding and an unbinding (R41) -/

theorem total_put_fresh (hk : m.segment h = none) :
    Memory.total ⟨assocPut h.toNat g m.seg, fr, next⟩ = m.total + g.len :=
  sum_assocPut_fresh (fun s : Segment => s.len) g hk

theorem total_put_live (hm : m.wf) (hk : m.segment h = some u) :
    Memory.total ⟨assocPut h.toNat g m.seg, fr, next⟩ + u.len = m.total + g.len :=
  sum_assocPut_listed (fun s : Segment => s.len) g hm.1 hk

theorem total_drop_live (hm : m.wf) (hk : m.segment h = some u) :
    Memory.total ⟨assocDrop h.toNat m.seg, fr, next⟩ + u.len = m.total :=
  sum_assocDrop_listed (fun s : Segment => s.len) hm.1 hk

/-! #### The invariant through a binding and an unbinding -/

/-- Binding h keeps the invariant when h is not left in FREE, FREE otherwise only loses handles, h is below the new
NEXT, and the segment is within the limits. -/
theorem HeapInv.put (inv : HeapInv cfg m) (hfree : ∀ k ∈ fr, k ∈ m.free ∧ k ≠ h) (hnodup : fr.Nodup)
    (hbelow : h.toNat < next) (hnext : m.next ≤ next) (hrange : next ≤ 2 ^ 32) (hlen : g.len ≤ cfg.maxSegmentWords)
    (hcap : ∀ c, cfg.heapCapacityWords = some c →
      Memory.total ⟨assocPut h.toNat g m.seg, fr, next⟩ ≤ c) :
    HeapInv cfg ⟨assocPut h.toNat g m.seg, fr, next⟩ where
  zeroLive := by
    by_cases h0 : 0 = h
    · exact ⟨g, h0 ▸ m.segment_put_same h g fr next⟩
    · obtain ⟨g0, hg0⟩ := inv.zeroLive
      exact ⟨g0, (m.segment_put_other g fr next h0).trans hg0⟩
  freeNotLive k hk := by
    obtain ⟨hold, hne⟩ := hfree k hk
    exact (m.segment_put_other g fr next hne).trans (inv.freeNotLive k hold)
  freeBelowNext k hk := by
    obtain ⟨hlt, h0⟩ := inv.freeBelowNext k (hfree k hk).1
    exact ⟨Nat.lt_of_lt_of_le hlt hnext, h0⟩
  freeNoRepeat := hnodup
  liveBelowNext k hk := by
    by_cases hkh : k = h
    · exact hkh ▸ hbelow
    · obtain ⟨g', hg'⟩ := hk
      exact Nat.lt_of_lt_of_le (inv.liveBelowNext k ⟨g', (m.segment_put_other g fr next hkh).symm.trans hg'⟩) hnext
  segmentLength k g' hg' := by
    by_cases hkh : k = h
    · subst hkh
      rw [m.segment_put_same k g fr next] at hg'
      exact Option.some.inj hg' ▸ hlen
    · exact inv.segmentLength k g' ((m.segment_put_other g fr next hkh).symm.trans hg')
  withinCapacity := hcap
  nextRange := ⟨Nat.le_trans inv.nextRange.1 hnext, hrange⟩

/-- Binding a live handle to another segment changes neither FREE nor NEXT (R47, R48). -/
theorem HeapInv.rebind (inv : HeapInv cfg m) (hlive : m.segment h = some u) (hlen : g.len ≤ cfg.maxSegmentWords)
    (hcap : ∀ c, cfg.heapCapacityWords = some c →
      Memory.total ⟨assocPut h.toNat g m.seg, m.free, m.next⟩ ≤ c) :
    HeapInv cfg ⟨assocPut h.toNat g m.seg, m.free, m.next⟩ := by
  refine inv.put (fun k hk => ⟨hk, ?_⟩) inv.freeNoRepeat (inv.liveBelowNext h ⟨u, hlive⟩) (Nat.le_refl _)
    inv.nextRange.2 hlen hcap
  rintro rfl
  cases hlive.symm.trans (inv.freeNotLive k hk)

/-- The handle Allocate answers is not 0 and was not live: it comes from FREE, or is NEXT (R42). -/
theorem memAlloc_handle (inv : HeapInv cfg m) (e : memAlloc cfg n m = .ok (h, m')) :
    h ≠ 0 ∧ m.segment h = none := by
  obtain ⟨-, ⟨l, hl, -⟩ | ⟨-, -, hh, -⟩⟩ := memAlloc_ok e
  · have hmem : h ∈ m.free := by simp [hl]
    exact ⟨(inv.freeBelowNext h hmem).2, inv.freeNotLive h hmem⟩
  · have hpos := inv.nextRange.1
    refine ⟨?_, Option.eq_none_iff_forall_ne_some.mpr fun g hg => ?_⟩
    · rintro rfl
      change 0 = m.next at hh
      omega
    · have hlt := inv.liveBelowNext h ⟨g, hg⟩
      omega

theorem memAlloc_total (inv : HeapInv cfg m) (e : memAlloc cfg n m = .ok (h, m')) :
    m'.total = m.total + n.toNat := by
  have hdead := (memAlloc_handle inv e).2
  obtain ⟨-, ⟨l, -, rfl⟩ | ⟨-, -, -, rfl⟩⟩ := memAlloc_ok e
  · exact total_put_fresh hdead
  · exact total_put_fresh hdead

theorem memAlloc_heapInv (inv : HeapInv cfg m) (e : memAlloc cfg n m = .ok (h, m')) : HeapInv cfg m' := by
  have htotal := memAlloc_total inv e
  obtain ⟨⟨hlen, hcap⟩, ⟨l, hl, rfl⟩ | ⟨-, hlt, hh, rfl⟩⟩ := memAlloc_ok e
  · have hnodup : (l ++ [h]).Nodup := hl ▸ inv.freeNoRepeat
    obtain ⟨hl', -, hdisjoint⟩ := List.nodup_append.mp hnodup
    have hmem : h ∈ m.free := by simp [hl]
    exact inv.put (fun k hk => ⟨by simp [hl, hk], hdisjoint k hk h List.mem_cons_self⟩) hl'
      (inv.freeBelowNext h hmem).1 (Nat.le_refl _) inv.nextRange.2 hlen fun c hc => htotal ▸ hcap c hc
  · exact inv.put nofun List.nodup_nil (by omega) (Nat.le_succ _) hlt hlen fun c hc => htotal ▸ hcap c hc

theorem memWrite_heapInv (hm : m.wf) (inv : HeapInv cfg m) (e : memWrite m h i v = .ok m') : HeapInv cfg m' := by
  obtain ⟨g, hg, -, rfl⟩ := memWrite_ok e
  refine inv.rebind hg (inv.segmentLength h g hg) fun c hc => ?_
  have htotal := total_put_live (g := g.write i.toNat v) (fr := m.free) (next := m.next) hm hg
  rw [Segment.write_len] at htotal
  exact Nat.add_right_cancel htotal ▸ inv.withinCapacity c hc

theorem memFree_total (hm : m.wf) (hg : m.segment h = some g) (e : memFree h m = .ok m') :
    m'.total + g.len = m.total := by
  obtain ⟨-, -, rfl⟩ := memFree_ok e
  exact total_drop_live hm hg

/-- Free moves its handle from the live handles to FREE. -/
theorem memFree_heapInv (hm : m.wf) (inv : HeapInv cfg m) (e : memFree h m = .ok m') : HeapInv cfg m' := by
  obtain ⟨h0, ⟨g, hg⟩, hm'⟩ := memFree_ok e
  have hfree : m'.free = m.free ++ [h] := by rw [hm']
  have hnext : m'.next = m.next := by rw [hm']
  have stays : ∀ {k g'}, m'.segment k = some g' → m.segment k = some g' := fun {k g'} hk => by
    have hne : k ≠ h := by
      rintro rfl
      cases hk.symm.trans (memFree_segment_same e)
    exact (memFree_segment_other e hne).symm.trans hk
  exact
    { zeroLive := by
        obtain ⟨g0, hg0⟩ := inv.zeroLive
        exact ⟨g0, (memFree_segment_other e h0.symm).trans hg0⟩
      freeNotLive := fun k hk => by
        by_cases hkh : k = h
        · exact hkh ▸ memFree_segment_same e
        · have hold : k ∈ m.free := by simpa [hfree, hkh] using hk
          exact (memFree_segment_other e hkh).trans (inv.freeNotLive k hold)
      freeBelowNext := fun k hk => by
        rw [hnext]
        rcases List.mem_append.mp (hfree ▸ hk) with hold | hnew
        · exact inv.freeBelowNext k hold
        · obtain rfl := List.mem_singleton.mp hnew
          exact ⟨inv.liveBelowNext k ⟨g, hg⟩, h0⟩
      freeNoRepeat := by
        have hnew : h ∉ m.free := fun hmem => by cases hg.symm.trans (inv.freeNotLive h hmem)
        rw [hfree]
        exact inv.freeNoRepeat.append (List.nodup_singleton h) (List.disjoint_singleton.mpr hnew)
      liveBelowNext := by
        rintro k ⟨g', hk⟩
        rw [hnext]
        exact inv.liveBelowNext k ⟨g', stays hk⟩
      segmentLength := fun k g' hk => inv.segmentLength k g' (stays hk)
      withinCapacity := fun c hc => by
        have htotal := memFree_total hm hg e
        have hle := inv.withinCapacity c hc
        omega
      nextRange := hnext ▸ inv.nextRange }

theorem memReplace_total (hm : m.wf) (inv : HeapInv cfg m) (hg : m.segment h = some g) (h0 : h ≠ 0)
    (e : memReplace cfg h m = .ok m') : m'.total + m.programLen = m.total + g.len := by
  obtain ⟨g0, hg0⟩ := inv.zeroLive
  obtain ⟨rfl, -⟩ | ⟨-, g', hg', -, rfl⟩ := memReplace_ok e
  · exact absurd rfl h0
  · obtain rfl := Option.some.inj (hg.symm.trans hg')
    rw [Memory.programLen_of_segment hg0]
    exact total_put_live hm hg0

theorem memReplace_heapInv (hm : m.wf) (inv : HeapInv cfg m) (e : memReplace cfg h m = .ok m') :
    HeapInv cfg m' := by
  obtain ⟨g0, hg0⟩ := inv.zeroLive
  obtain ⟨-, rfl⟩ | ⟨h0, g, hg, hcap, hm'⟩ := memReplace_ok e
  · exact inv
  · have htotal := memReplace_total hm inv hg h0 e
    have hle := m.programLen_le_total
    subst hm'
    refine inv.rebind hg0 (inv.segmentLength h g hg) fun c hc => ?_
    have hc' := hcap c hc
    omega

end

/-- Settles O24: each allocation takes the handle that the free before it left last in FREE. -/
theorem handlesAreReusedLastInFirstOut : Obligations.HandlesAreReusedLastInFirstOut := by
  intro cfg m m1 m2 m3 m4 h1 h2 n1 n2 a1 a2 e1 e2 e3 e4
  have takesLast : ∀ {m m' : Memory} {l : List Word} {h n a : Word}, m.free = l ++ [h] →
      memAlloc cfg n m = .ok (a, m') → a = h ∧ m'.free = l ∧ m'.next = m.next := by
    intro m m' l h n a hf e
    rw [memAlloc_of_free (memAlloc_ok e).1 hf] at e
    cases e
    exact ⟨rfl, rfl, rfl⟩
  obtain ⟨-, -, rfl⟩ := memFree_ok e1
  obtain ⟨-, -, rfl⟩ := memFree_ok e2
  obtain ⟨ha1, hf3, hn3⟩ := takesLast rfl e3
  obtain ⟨ha2, hf4, hn4⟩ := takesLast hf3 e4
  exact ⟨ha1, ha2, hf4, hn4.trans hn3⟩

/-- Settles O25: the handle comes from FREE or is NEXT, and is bound to the new segment. -/
theorem allocateNeverReturnsALiveHandle : Obligations.AllocateNeverReturnsALiveHandle := by
  intro cfg m m' n h inv e
  obtain ⟨h0, hdead⟩ := memAlloc_handle inv e
  refine ⟨h0, ?_, _, memAlloc_segment_same e, rfl⟩
  rintro ⟨g, hg⟩
  cases hdead.symm.trans hg

/-- Settles O26: the accounting of the three requests. -/
theorem totalFollowsEachRequest : Obligations.TotalFollowsEachRequest := fun _ _ _ _ _ _ hm inv =>
  ⟨memAlloc_total inv, memFree_total hm, memReplace_total hm inv⟩

end Sys2Proof.Machine

/-! ### What a step keeps (10_state.md R23 to R28, 20_memory.md R40, 40_execution_cycle.md R90 to R94)

A step takes a fault or completes its instruction. Each statement about all steps is its clause for the fault, which
writes STATUS and the record alone, and its clause for the completed instruction, part by part. -/

namespace Sys2Proof.Machine

/-- All that a step can do: take a fault, or complete the fetched instruction without one. -/
theorem step_outcome {s t : State} (e : step s = .next t) :
    (∃ f : FaultInfo, f.kind.Raised ∧ t = s.raise f) ∨
    (∃ w, fetch s = .ok w ∧ Completed (decode w) s t ∧ t.status ≠ .faulted) := by
  obtain ⟨hs, ⟨-, ht⟩ | ⟨w, hw, ew⟩⟩ := step_next e
  · exact .inl ⟨⟨.outOfBounds, 0, s.pc⟩, ⟨nofun, nofun⟩, ht⟩
  · rcases exec_next ew with raised | h
    · exact .inl raised
    · refine .inr ⟨w, hw, h, ?_⟩
      rcases completed_status h with ⟨-, ht⟩ | ⟨-, ht⟩ <;> rw [ht]
      · nofun
      · rw [hs]; nofun

/-! #### The registers that hold no value -/

/-- A completed instruction gives the register it writes a value; cmov with a condition of 0 writes none (R22). -/
theorem completed_written {i : Instr} {s t : State} (h : Completed i s t) {d : Reg} (hd : i.writtenReg = some d) :
    d ∉ t.unwritten ∨ (SameReg d s t ∧ ∃ b c, i = .cmov d b c ∧ s.reg c = 0) := by
  have written : ∀ (u : State) (v : Word), d ∉ (u.setReg d v).advance.unwritten := fun u v => (holds_setReg u d v).2
  cases i <;> simp only [Instr.writtenReg, reduceCtorEq, Option.some.injEq] at hd <;> subst hd <;>
    simp only [Completed] at h
  case cmov a b c =>
    rcases h with ⟨-, rfl⟩ | ⟨hc, rfl⟩
    · exact .inl (written s _)
    · exact .inr ⟨⟨rfl, Iff.rfl⟩, b, c, rfl, hc⟩
  case aread | div => obtain ⟨v, -, rfl⟩ := h; exact .inl (written s v)
  case add | mul | nand | li => subst h; exact .inl (written s _)
  case alloc => obtain ⟨k, m, -, rfl⟩ := h; exact .inl (written (s.setMem m) k)
  case inp =>
    rcases h with ⟨v, rest, -, rfl⟩ | ⟨-, -, rfl⟩
    · exact .inl (written s.consumeInput _)
    · exact .inl (written s _)

/-- No instruction takes a register's value away (R23). -/
theorem completed_unwritten_subset {i : Instr} {s t : State} (h : Completed i s t) {r : Reg}
    (hr : r ∈ t.unwritten) : r ∈ s.unwritten := by
  by_cases hw : i.writtenReg = some r
  · rcases completed_written h hw with hval | ⟨hsame, -⟩
    · exact absurd hr hval
    · exact hsame.2.mp hr
  · exact (completed_regs h hw).2.mp hr

/-- Settles O55: a fault changes no register; a completed instruction changes the one it writes. -/
theorem writtenRegistersKeepAValue : Obligations.WrittenRegistersKeepAValue := by
  intro s t e
  rcases step_outcome e with ⟨f, -, rfl⟩ | ⟨w, hw, h, -⟩
  · exact ⟨fun _ hr => hr, fun _ hr hr' => absurd hr hr', fun _ _ _ hfaulted => absurd rfl hfaulted⟩
  · refine ⟨fun r => completed_unwritten_subset h, fun r hr hr' => ⟨w, hw, ?_⟩, fun w' r hw' _ hwr => ?_⟩
    · by_contra hne
      exact hr' ((completed_regs h hne).2.mpr hr)
    · obtain rfl := Except.ok.inj (hw.symm.trans hw')
      exact (completed_written h hwr).imp id And.right

/-! #### The invariant -/

/-- Taking a fault writes STATUS and the record, which agree afterwards; the rest of the invariant does not speak of
them (R152). -/
theorem raise_inv {s : State} (inv : s.Inv) {f : FaultInfo} (hf : f.kind.Raised) : (s.raise f).Inv where
  configLegal := inv.configLegal
  memCanonical := inv.memCanonical
  heap := inv.heap
  pcRange := inv.pcRange
  recordAgrees := ⟨⟨fun _ => hf.1, fun _ => rfl⟩, fun h => absurd rfl h⟩
  regsHold := inv.regsHold

/-- Memory stays canonical and keeps I1 to I7 through whatever request an instruction makes. -/
theorem memoryChanges_keeps {i : Instr} {s t : State} (h : MemoryChangesByOwnRequest i s t) (hm : s.mem.wf)
    (inv : HeapInv s.config s.mem) : t.mem.wf ∧ HeapInv s.config t.mem := by
  rcases memoryChanges_cases h with e | ⟨_, _, _, e⟩ | ⟨_, _, e⟩ | ⟨_, e⟩ | ⟨_, e⟩
  · rw [e]; exact ⟨hm, inv⟩
  · exact ⟨memWrite_wf hm e, memWrite_heapInv hm inv e⟩
  · exact ⟨memAlloc_wf hm e, memAlloc_heapInv inv e⟩
  · exact ⟨memFree_wf hm e, memFree_heapInv hm inv e⟩
  · exact ⟨memReplace_wf hm e, memReplace_heapInv hm inv e⟩

/-- The pc of a fetched instruction is below the length of segment 0, hence below 2^32 (R24). -/
theorem pc_lt_of_fetch {s : State} (inv : s.Inv) {w : Word} (hw : fetch s = .ok w) : s.pc.toNat < 2 ^ 32 := by
  obtain ⟨g, hg, hlt, -⟩ := fetch_ok hw
  have hlen := inv.heap.segmentLength 0 g hg
  have hmax := inv.configLegal.2
  omega

theorem completed_pcRange {i : Instr} {s t : State} (h : Completed i s t) (hpc : s.pc.toNat < 2 ^ 32) :
    t.pc.toNat ≤ 2 ^ 32 := by
  rcases completed_pc h with ⟨b, c, -, ht⟩ | ⟨-, ht⟩
  · have hlt := (s.reg c).isLt
    rw [ht, BitVec.toNat_setWidth_of_le (by decide)]
    omega
  · rw [ht, BitVec.toNat_add]
    exact Nat.le_trans (Nat.mod_le _ _) hpc

/-- Settles O18: a fault writes an agreeing record; a completed instruction changes memory by a request that keeps
the heap's invariant, moves pc to at most 2^32, and takes no register's value away. -/
theorem stepKeepsTheInvariant : Obligations.StepKeepsTheInvariant := by
  intro s t inv e
  have hrunning : s.status = .running := (step_next e).1
  rcases step_outcome e with ⟨f, hf, rfl⟩ | ⟨w, hw, h, hstatus⟩
  · exact raise_inv inv hf
  · obtain ⟨hfault, hconfig⟩ := completed_control h
    obtain ⟨hm, hheap⟩ := memoryChanges_keeps (completed_mem h) inv.memCanonical inv.heap
    have hclear : t.fault = FaultRecord.clear := hfault.trans (inv.recordAgrees.2 (by rw [hrunning]; nofun))
    refine ⟨hconfig ▸ inv.configLegal, hm, hconfig ▸ hheap, completed_pcRange h (pc_lt_of_fetch inv hw),
      ⟨⟨fun hf => absurd hf hstatus, fun hk => absurd (by rw [hclear]; rfl) hk⟩, fun _ => hclear⟩, fun hz => ?_⟩
    have hnone := inv.regsHold (hconfig ▸ hz)
    exact List.eq_nil_iff_forall_not_mem.mpr fun r hr =>
      List.not_mem_nil (hnone ▸ completed_unwritten_subset h hr)

/-- R171's state meets the invariant, for an image within the limits. -/
theorem loadedState_inv {cfg : Config} (hcfg : cfg.legal) {ws : List Word} (hmax : ws.length ≤ cfg.maxSegmentWords)
    (hcap : ∀ c, cfg.heapCapacityWords = some c → ws.length ≤ c) (input : List Byte) (ended : Bool) :
    (loadedState cfg ws input ended).Inv where
  configLegal := hcfg
  memCanonical := loadedState_wf cfg ws input ended
  heap :=
    { zeroLive := (loadedState_live_iff cfg ws input ended 0).mpr rfl
      freeNotLive := nofun
      freeBelowNext := nofun
      freeNoRepeat := List.nodup_nil
      liveBelowNext := fun h hlive => by
        obtain rfl := (loadedState_live_iff cfg ws input ended h).mp hlive
        exact Nat.one_pos
      segmentLength := fun h g hg => by
        obtain rfl := (loadedState_live_iff cfg ws input ended h).mp ⟨g, hg⟩
        obtain rfl := Option.some.inj hg
        exact hmax
      withinCapacity := hcap
      nextRange := ⟨Nat.le_refl 1, Nat.one_le_two_pow⟩ }
  pcRange := Nat.zero_le _
  recordAgrees := ⟨⟨nofun, fun h => absurd rfl h⟩, fun _ => rfl⟩
  regsHold hz := by
    change cfg.regReset.valueless = []
    rw [show cfg.regReset = .zero from hz]
    rfl

/-- Settles O19: a boot that ends RUNNING is R171's state for an image within the limits. -/
theorem bootMeetsTheInvariant : Obligations.BootMeetsTheInvariant := by
  intro cfg image input ended hcfg hrunning
  rcases boot_cases cfg image input ended with ⟨ws, -, hmax, hcap, e⟩ | e
  · rw [e]; exact loadedState_inv hcfg hmax hcap input ended
  · rw [e] at hrunning
    cases hrunning

/-- Settles O17: reset is the boot of the empty image. -/
theorem resetMeetsTheInvariant : Obligations.ResetMeetsTheInvariant :=
  bootMeetsTheInvariant Config.standard [] [] true ⟨by decide, Nat.le_refl _⟩ rfl

/-! #### pc, STATUS and the record -/

theorem currentWord_of_fetch_error {s : State} {f : FaultInfo} (h : fetch s = .error f) : currentWord s = 0 := by
  unfold currentWord; rw [h]

theorem fetch_of_programLen_le {s : State} (hpc : s.mem.programLen ≤ s.pc.toNat) :
    fetch s = .error ⟨.outOfBounds, 0, s.pc⟩ := by
  cases hg : s.mem.segment 0 with
  | none => simp only [fetch, hg]
  | some g => exact fetch_of_len_le hg (Memory.programLen_of_segment hg ▸ hpc)

/-- Settles O12: the fetch answers OutOfBounds, there is no word at pc, and the step raises the fault. -/
theorem fetchPastTheProgramFaults : Obligations.FetchPastTheProgramFaults := by
  intro s hs hpc
  have e := fetch_of_programLen_le hpc
  exact ⟨_, step_of_fetch_error hs e, currentWord_of_fetch_error e ▸ tookFault_raise s ⟨.outOfBounds, 0, s.pc⟩⟩

/-- Settles O13: a fault leaves pc, and a completed instruction moves it as R25 says. -/
theorem pcAddsOneExceptLoadProgramAndFault : Obligations.PcAddsOneExceptLoadProgramAndFault := by
  refine ⟨rfl, fun s t e => ?_⟩
  rcases step_outcome e with ⟨f, -, rfl⟩ | ⟨w, hw, h, hstatus⟩
  · exact ⟨fun _ => rfl, fun hstatus => absurd rfl hstatus⟩
  · refine ⟨fun hf => absurd hf hstatus, fun _ => ⟨w, hw, ?_⟩⟩
    rcases completed_pc h with ⟨b, c, hi, hpc⟩ | ⟨hi, hpc⟩
    · refine ⟨fun b' c' hi' => ?_, fun hne => absurd hi (hne b c)⟩
      obtain ⟨-, rfl⟩ := Instr.loadprog.inj (hi.symm.trans hi')
      exact hpc
    · exact ⟨fun b c hi' => absurd hi' (hi b c), fun _ => hpc⟩

/-- halt stops the machine and moves pc on (R120). -/
theorem exec_halt (s : State) : exec .halt s = .next s.stop.advance := rfl

/-- Settles O14: halt is executed as HALTED; otherwise a completed instruction leaves STATUS, and a fault writes it
with a raised kind. -/
theorem statusMovesOnlyByHaltOrFault : Obligations.StatusMovesOnlyByHaltOrFault := by
  intro s t e
  have hrunning : s.status = .running := (step_next e).1
  have halts : (∃ w, fetch s = .ok w ∧ decode w = .halt) → t.status = .halted := by
    rintro ⟨w, hw, hi⟩
    rw [step_of_fetch hrunning hw, hi, exec_halt] at e
    cases e
    rfl
  refine ⟨⟨fun ht => ?_, halts⟩, ?_⟩ <;> rcases step_outcome e with ⟨f, hf, rfl⟩ | ⟨w, hw, h, hstatus⟩
  · cases ht
  · rcases completed_status h with ⟨hi, -⟩ | ⟨-, hsame⟩
    · exact ⟨w, hw, hi⟩
    · cases ht.symm.trans (hsame.trans hrunning)
  · exact ⟨fun _ => hf, fun hstatus => absurd rfl hstatus⟩
  · exact ⟨fun hf => absurd hf hstatus, fun _ => (completed_control h).1⟩

/-- Settles O15: a step that ends FAULTED completed no instruction, so it raised a fault. -/
theorem faultingStepChangesNothingElse : Obligations.FaultingStepChangesNothingElse := by
  intro s t e ht
  rcases step_outcome e with ⟨f, -, rfl⟩ | ⟨w, -, -, hstatus⟩
  · exact tookFault_raise s f
  · exact absurd ht hstatus

/-! #### The channels -/

/-- What `IoMovesByOwnTransfer` allows, by the kind of transfer. -/
theorem ioMoves_cases {i : Instr} {s t : State} (h : IoMovesByOwnTransfer i s t) :
    SameIo s t ∨ (SameInput s t ∧ ∃ b, t.output = s.output ++ [b]) ∨
    (t.output = s.output ∧ t.inputEnded = s.inputEnded ∧ t.input = s.input.tail) := by
  cases i
  case out => exact .inr (.inl ⟨h.1, _, h.2⟩)
  case inp => exact .inr (.inr h)
  all_goals exact .inl h

/-- Settles O52: a fault moves neither channel, and an instruction at most one byte of one of them. -/
theorem channelsMoveByAtMostOneByte : Obligations.ChannelsMoveByAtMostOneByte := by
  intro s t e
  rcases step_outcome e with ⟨f, -, rfl⟩ | ⟨w, -, h, -⟩
  · exact ⟨.inl rfl, .inl rfl, rfl, rfl⟩
  · have hconfig := (completed_control h).2
    rcases ioMoves_cases (completed_io h) with ⟨⟨hi, he⟩, ho⟩ | ⟨⟨hi, he⟩, b, ho⟩ | ⟨ho, he, hi⟩
    · exact ⟨.inl ho, .inl hi, he, hconfig⟩
    · exact ⟨.inr ⟨b, ho⟩, .inl hi, he, hconfig⟩
    · refine ⟨.inl ho, ?_, he, hconfig⟩
      cases hs : s.input with
      | nil => exact .inl (by rw [hi, hs, List.tail_nil])
      | cons b rest => exact .inr ⟨b, by rw [hi, hs, List.tail_cons]⟩

/-! #### Reading a register that holds no value (R23, V3) -/

/-- A request whose faults are the chip's own: none is V3's. -/
def ChipFaultsOnly {α : Type} (q : Except FaultInfo α) : Prop := ∀ f, q = .error f → f.kind ≠ .unwrittenRegister

theorem memRead_chipFaultsOnly (m : Memory) (h i : Word) : ChipFaultsOnly (memRead m h i) := by
  intro f e
  unfold memRead at e
  split at e
  · cases e; nofun
  · split at e <;> cases e; nofun

theorem memWrite_chipFaultsOnly (m : Memory) (h i v : Word) : ChipFaultsOnly (memWrite m h i v) := by
  intro f e
  unfold memWrite at e
  split at e
  · cases e; nofun
  · split at e <;> cases e; nofun

theorem memReplace_chipFaultsOnly (cfg : Config) (h : Word) (m : Memory) : ChipFaultsOnly (memReplace cfg h m) := by
  intro f e
  unfold memReplace at e
  split at e
  · cases e
  · split at e
    · cases e; nofun
    · split at e <;> cases e; nofun

/-- An instruction whose registers hold values never raises V3's fault: it leaves the record or writes another kind. -/
theorem exec_kind_of_canRead {i : Instr} {s t : State} (hr : s.CanRead i.readRegs) (e : exec i s = .next t) :
    t.fault = s.fault ∨ t.fault.kind ≠ .unwrittenRegister := by
  have viaTrap : ∀ {α : Type} {q : Except FaultInfo α} {k : α → State},
      exec i s = reading i.readRegs s (orTrap s q k) → ChipFaultsOnly q → (∀ v, (k v).fault = s.fault) →
      t.fault = s.fault ∨ t.fault.kind ≠ .unwrittenRegister := by
    intro α q k hi hq hk
    rw [hi, reading_of_canRead hr] at e
    rcases orTrap_next e with ⟨v, -, rfl⟩ | ⟨f, hf, rfl⟩
    · exact .inl (hk v)
    · exact .inr (hq f hf)
  have guarded : ∀ {o : Host.Outcome State Fault Refusal}, exec i s = reading i.readRegs s o → o = .next t := by
    intro o hi
    rwa [hi, reading_of_canRead hr] at e
  cases i
  case aread => exact viaTrap rfl (memRead_chipFaultsOnly _ _ _) fun _ => rfl
  case awrite => exact viaTrap rfl (memWrite_chipFaultsOnly _ _ _ _) fun _ => rfl
  case loadprog => exact viaTrap rfl (memReplace_chipFaultsOnly _ _ _) fun _ => rfl
  case div => exact viaTrap rfl (fun f hf => by rw [aluDiv_error hf]; nofun) fun _ => rfl
  case alloc => exact viaTrap rfl (fun f hf => by rw [memAlloc_error hf]; nofun) fun _ => rfl
  case free => exact viaTrap rfl (fun f hf => by rw [memFree_error hf]; nofun) fun _ => rfl
  case add | mul | nand => cases guarded rfl; exact .inl rfl
  case cmov =>
    cases guarded rfl
    split <;> exact .inl rfl
  case out =>
    have e' := guarded rfl
    split at e' <;> cases e'
    · exact .inl rfl
    · exact .inr nofun
  case inp c =>
    rcases inByte_cases s with ⟨v, rest, hi, -⟩ | ⟨hi, he, -⟩ | ⟨hi, he, -⟩
    · cases (exec_inp_of_byte hi c).symm.trans e; exact .inl rfl
    · cases (exec_inp_of_ended hi he c).symm.trans e; exact .inl rfl
    · cases (exec_inp_of_pending hi he c).symm.trans e
  case halt | li => cases e; exact .inl rfl
  case reserved14 | reserved15 => cases e; exact .inr nofun

/-- Settles O54: the registers are read first, and only that read raises V3's fault; under REG_RESET = ZERO the
invariant leaves no register without a value. -/
theorem readOfAnUnwrittenRegisterFaults : Obligations.ReadOfAnUnwrittenRegisterFaults := by
  intro i s
  have raises : ∀ t, exec i s = .next t → s.fault.kind ≠ .unwrittenRegister → t.fault.kind = .unwrittenRegister →
      ∃ r ∈ i.readRegs, r ∈ s.unwritten := by
    intro t e hs ht
    by_contra hnone
    have hr : s.CanRead i.readRegs := fun r hr hu => hnone ⟨r, hr, hu⟩
    rcases exec_kind_of_canRead hr e with hsame | hother
    · exact hs (hsame ▸ ht)
    · exact hother ht
  refine ⟨?_, raises, fun inv hz hrunning t e ht => ?_⟩
  · rintro w hw ⟨r, hr, hu⟩
    exact ⟨_, exec_unwritten fun hread => hread r hr hu, tookFault_of_fetch hw _ _ _⟩
  · have hclear : s.fault = FaultRecord.clear := inv.recordAgrees.2 (by rw [hrunning]; nofun)
    obtain ⟨r, -, hu⟩ := raises t e (by rw [hclear]; nofun) ht
    rw [inv.regsHold hz] at hu
    exact List.not_mem_nil hu

end Sys2Proof.Machine

/-! ### The laws of the arithmetic (42_alu.md R115) -/

namespace Sys2Proof.Machine

theorem aluAdd_comm (x y : Word) : aluAdd x y = aluAdd y x := by rw [aluAdd, Nat.add_comm, aluAdd]

theorem aluMul_comm (x y : Word) : aluMul x y = aluMul y x := by rw [aluMul, Nat.mul_comm, aluMul]

theorem aluAdd_assoc (x y z : Word) : aluAdd (aluAdd x y) z = aluAdd x (aluAdd y z) := by
  refine BitVec.eq_of_toNat_eq ?_
  simp only [toNat_aluAdd, Nat.mod_add_mod, Nat.add_mod_mod, Nat.add_assoc]

theorem aluMul_assoc (x y z : Word) : aluMul (aluMul x y) z = aluMul x (aluMul y z) := by
  refine BitVec.eq_of_toNat_eq ?_
  simp only [toNat_aluMul, Nat.mod_mul_mod, Nat.mul_mod_mod, Nat.mul_assoc]

/-- Two registers are read in either order. -/
theorem reading_swap (b c : Reg) (s : State) (k : Host.Outcome State Fault Refusal) :
    reading [b, c] s k = reading [c, b] s k := by
  have hiff : s.CanRead [b, c] ↔ s.CanRead [c, b] := by simp [State.CanRead, and_comm]
  simp only [reading, hiff]

/-- Settles O38: the ALU functions' laws, and for the two exchanges the reading of the sources in either order. -/
theorem arithmeticLawsHold : Obligations.ArithmeticLawsHold := by
  refine ⟨fun a b c s => ?_, fun a b c s => ?_, aluAdd_assoc, aluMul_assoc, fun x => ?_, fun y hy => ?_,
    fun x y hlt => ?_⟩
  · simp only [exec, execAdd, reading_swap b c, aluAdd_comm (s.reg b)]
  · simp only [exec, execMul, reading_swap b c, aluMul_comm (s.reg b)]
  · exact (aluDiv_of_ne_zero x (by decide)).trans (congrArg Except.ok BitVec.udiv_one)
  · exact (aluDiv_of_ne_zero 0 hy).trans (congrArg Except.ok BitVec.zero_udiv)
  · have hy : y ≠ 0 := by rintro rfl; exact Nat.not_lt_zero _ hlt
    have hquot : x / y = 0 := BitVec.eq_of_toNat_eq (BitVec.toNat_udiv.trans (Nat.div_eq_of_lt hlt))
    rw [aluDiv_of_ne_zero x hy, hquot]

end Sys2Proof.Machine

/-! ### Halt, allocation beyond the limits, output and input (43_halt_and_heap.md, 44_io.md) -/

namespace Sys2Proof.Machine

/-- Settles O39: halt reads nothing and makes no request, so it completes from every state. -/
theorem haltOnlyStops : Obligations.HaltOnlyStops := fun s =>
  ⟨_, exec_halt s, rfl, rfl, fun _ => ⟨rfl, Iff.rfl⟩, ⟨fun _ _ => rfl, rfl⟩, ⟨⟨rfl, rfl⟩, rfl⟩, rfl, rfl⟩

/-- Beyond a limit, or with no handle left, Allocate answers no handle; its one fault carries the size (R42, R43). -/
theorem memAlloc_of_refused {cfg : Config} {n : Word} {m : Memory}
    (hrefused : ¬ Admitted cfg m.total n.toNat ∨ (m.free = [] ∧ 2 ^ 32 ≤ m.next)) :
    memAlloc cfg n m = .error ⟨.allocationFailure, 0, n.setWidth 33⟩ := by
  cases e : memAlloc cfg n m with
  | error f => rw [memAlloc_error e]
  | ok r =>
    obtain ⟨hadm, ⟨l, hl, -⟩ | ⟨-, hn, -, -⟩⟩ := memAlloc_ok e <;> rcases hrefused with hr | ⟨hf, hnext⟩
    · exact absurd hadm hr
    · simp [hf] at hl
    · exact absurd hadm hr
    · omega

/-- Settles O41: Allocate's refusal is the instruction's fault. -/
theorem allocFailsBeyondTheLimits : Obligations.AllocFailsBeyondTheLimits := fun _ _ _ _ hr hw hrefused =>
  reading_orTrap_tookFault hr (memAlloc_of_refused hrefused) hw _

/-- The test of R132: the value is a byte, or the policy is to truncate. -/
theorem exec_out_of_emitted {c : Reg} {s : State} (hr : s.CanRead [c])
    (h : (s.reg c).toNat ≤ 255 ∨ s.config.outputPolicy = .truncate) :
    exec (.out c) s = .next (s.emit ((s.reg c).setWidth 8)).advance := by
  simp [exec, execOut, reading_of_canRead hr, isByteValue, h]

theorem exec_out_of_refused {c : Reg} {s : State} (hr : s.CanRead [c]) (hv : 255 < (s.reg c).toNat)
    (hp : s.config.outputPolicy = .fault) :
    exec (.out c) s = .next (s.raise ⟨.outputOutOfRange, 0, 0⟩) := by
  simp [exec, execOut, reading_of_canRead hr, isByteValue, hv, hp, trap]

/-- Settles O43: the byte emitted is the value mod 256, and above 255 the policy decides. -/
theorem outEmitsOneByteOrFaults : Obligations.OutEmitsOneByteOrFaults := fun _ _ hr =>
  ⟨fun h => ⟨_, _, exec_out_of_emitted hr h, rfl, BitVec.toNat_setWidth _ _, ⟨rfl, rfl⟩, rfl,
      fun _ => ⟨rfl, Iff.rfl⟩, ⟨fun _ _ => rfl, rfl⟩, ⟨rfl, rfl, rfl⟩⟩,
    fun _ hw hv hp => ⟨_, exec_out_of_refused hr hv hp, tookFault_of_fetch hw _ _ _⟩⟩

/-- Settles O44: the input instruction by InByte's answer. -/
theorem inReadsAByteOrTheSentinel : Obligations.InReadsAByteOrTheSentinel := by
  intro c s
  refine ⟨fun v rest hi => ?_, fun hi he => ?_⟩
  · have consumed : s.consumeInput.input = rest := by rw [State.consumeInput_input, hi, List.tail_cons]
    exact ⟨_, exec_inp_of_byte hi c, holds_setReg s.consumeInput c _, consumed, rfl, rfl, rfl,
      fun _ hne => sameReg_setReg s.consumeInput _ hne, ⟨fun _ _ => rfl, rfl⟩, ⟨rfl, rfl, rfl⟩⟩
  · obtain ⟨hregs, hmem, hio, hcontrol⟩ := setReg_advance_frame s c eofSentinel
    exact ⟨_, exec_inp_of_ended hi he c, holds_setReg s c _, hio, rfl, hregs, hmem, hcontrol⟩

end Sys2Proof.Machine

/-! ### Load program, and the fetch after an array write (45_program_control.md R140, 20_memory.md R60) -/

namespace Sys2Proof.Machine

section

variable {cfg : Config} {m : Memory} {h : Word} {g : Segment}

theorem memReplace_of_zero (h0 : h = 0) : memReplace cfg h m = .ok m := if_pos h0

theorem memReplace_of_not_live (h0 : h ≠ 0) (hg : m.segment h = none) :
    memReplace cfg h m = .error ⟨.invalidHandle, h, 0⟩ := by
  simp only [memReplace, h0, if_false, hg]

theorem memReplace_of_fits (h0 : h ≠ 0) (hg : m.segment h = some g)
    (hfits : ∀ k, cfg.heapCapacityWords = some k → m.total - m.programLen + g.len ≤ k) :
    memReplace cfg h m = .ok ⟨assocPut (0 : Word).toNat g m.seg, m.free, m.next⟩ := by
  have hcap := (fitsCapacity_iff _ _).mpr hfits
  simp only [memReplace, h0, if_false, hg, hcap, if_true]
  rfl

theorem memReplace_of_exceeds {k : Nat} (h0 : h ≠ 0) (hg : m.segment h = some g)
    (hk : cfg.heapCapacityWords = some k) (hlt : k < m.total - m.programLen + g.len) :
    memReplace cfg h m = .error ⟨.allocationFailure, h, BitVec.ofNat 33 g.len⟩ := by
  have hcap : ¬ fitsCapacity cfg (m.total - m.programLen + g.len) = true := fun hfits =>
    Nat.not_le.mpr hlt ((fitsCapacity_iff _ _).mp hfits k hk)
  simp only [memReplace, h0, if_false, hg, hcap]
  rfl

end

/-- Settles O45: handle 0 leaves memory alone; another live handle's segment is bound to 0 as well, and no other
binding changes. -/
theorem loadprogCopiesAndJumps : Obligations.LoadprogCopiesAndJumps := by
  intro b c s hr
  refine ⟨fun h0 => ?_, fun g h0 hg hfits => ?_⟩
  · exact ⟨_, reading_orTrap_of_ok hr (memReplace_of_zero h0) _, rfl, fun _ => ⟨rfl, Iff.rfl⟩,
      ⟨fun _ _ => rfl, rfl⟩, ⟨⟨rfl, rfl⟩, rfl⟩, ⟨rfl, rfl, rfl⟩⟩
  · have e := memReplace_of_fits h0 hg hfits
    have copy := s.mem.segment_put_same 0 g s.mem.free s.mem.next
    exact ⟨_, reading_orTrap_of_ok hr e _, rfl, Memory.programLen_of_segment copy,
      fun _ => memRead_eq_of_segment copy hg, fun _ i hne => memRead_congr (memReplace_segment_other e hne) i,
      ⟨rfl, rfl⟩, fun _ => ⟨rfl, Iff.rfl⟩, ⟨⟨rfl, rfl⟩, rfl⟩, ⟨rfl, rfl, rfl⟩⟩

/-- Settles O46: ReplaceProgram's two faults are the instruction's. -/
theorem loadprogFaults : Obligations.LoadprogFaults := fun _ _ _ _ hr hw h0 =>
  ⟨fun hg => reading_orTrap_tookFault hr (memReplace_of_not_live h0 hg) hw _,
    fun _ _ hg hk hlt => reading_orTrap_tookFault hr (memReplace_of_exceeds h0 hg hk hlt) hw _⟩

/-- Settles O28: the write binds segment 0 to a segment of the same length with the word at its index, and a fetch
reads segment 0. -/
theorem nextFetchSeesTheWrite : Obligations.NextFetchSeesTheWrite := by
  intro s t a b c g hr ha hg hi e u hmem hpc
  have ew := memWrite_of_lt (h := s.reg a) (ha.symm ▸ hg) hi (s.reg c)
  have et := (reading_orTrap_of_ok hr ew _).symm.trans e
  cases et
  have bound : u.mem.segment 0 = some (g.write (s.reg b).toNat (s.reg c)) := by
    rw [hmem, ← ha]
    exact s.mem.segment_put_same _ _ _ _
  rw [fetch_of_lt bound (hpc ▸ hi), hpc, Segment.read_write_same]

end Sys2Proof.Machine

/-! ### What reset leaves, and a malformed image (70_reset_and_hazards.md R171, R172) -/

namespace Sys2Proof.Machine

/-- Settles O49: reset is R171's state for the empty image. -/
theorem resetLeavesTheSpecsValues : Obligations.ResetLeavesTheSpecsValues :=
  ⟨loadedState_holds (cfg := Config.standard) rfl [] [] true, rfl, rfl, rfl, rfl, rfl, rfl,
    loadedState_live_iff Config.standard [] [] true, boot_empty.symm⟩

/-- An image that is words is 4 bytes for each. -/
theorem length_of_imageWords {image : List Byte} {ws : List Word} (h : imageWords image = some ws) :
    image.length = 4 * ws.length := by
  induction image using imageWords.induct generalizing ws with
  | case1 => cases h; rfl
  | case2 b0 b1 b2 b3 rest ih =>
    obtain ⟨ws', hws', rfl⟩ := Option.map_eq_some_iff.mp h
    have hlen := ih hws'
    simp only [List.length_cons]
    omega
  | case3 | case4 | case5 => cases h

/-- Settles O51: an image that loads is whole words within the limits, so a malformed one boots to R172's state. -/
theorem malformedImageIsALoadError : Obligations.MalformedImageIsALoadError := by
  intro cfg image input ended hbad
  rcases boot_cases cfg image input ended with ⟨ws, hws, hmax, hcap, -⟩ | e
  · have hlen := length_of_imageWords hws
    rcases hbad with hrem | hlong | ⟨k, hk, hlt⟩
    · omega
    · omega
    · have hle := hcap k hk
      omega
  · rw [e]
    exact ⟨rfl, rfl, rfl, step_of_faulted rfl⟩

end Sys2Proof.Machine
